-- ==== Sys2Proof/Word.lean ====
section
/-! DEFINITION. Word types of the TD4 core (00_scope.md R10, R12, R13): every value is an unsigned bit vector of the
width the spec fixes; bit 0 is the least significant bit. -/

namespace Sys2Proof

/-- A 4-bit value: `A`, `B`, `OUT` and an immediate (R10: DATA_W). -/
abbrev Nibble := BitVec 4

/-- A 4-bit instruction address: `PC` and a jump target (R10: PC_W, R50). -/
abbrev Addr := BitVec 4

/-- An 8-bit instruction word, which is one memory entry (R10: WORD_W, R70). -/
abbrev Byte := BitVec 8

/-- One bit: the carry flag (R10: C_W). -/
abbrev Bit := BitVec 1

end Sys2Proof
end

