-- ==== Sys2Proof/Syntax.lean ====
section
/-! DEFINITION. The instructions, one constructor per row of spec/opcode_table.json (30_encoding.md R74). The opcode
alone picks the registers (R73), so a constructor's only field is the low nibble of its word: the immediate `imm`, or
the four bits `low` that the instruction ignores (R75). The ignored bits are kept, so that a word and its instruction
stand for each other one to one. -/

namespace Sys2Proof

/-- An instruction of the TD4 core. -/
inductive Instr where
  /-- ADD A, imm: opcode 0x0 (R121). -/
  | addA (imm : Nibble)
  /-- MOV A, B: opcode 0x1 (R130). -/
  | movAB (low : Nibble)
  /-- IN A: opcode 0x2 (R131). -/
  | inA (imm : Nibble)
  /-- MOV A, imm: opcode 0x3 (R132). -/
  | movAImm (imm : Nibble)
  /-- MOV B, A: opcode 0x4 (R133). -/
  | movBA (low : Nibble)
  /-- ADD B, imm: opcode 0x5 (R122). -/
  | addB (imm : Nibble)
  /-- IN B: opcode 0x6 (R134). -/
  | inB (imm : Nibble)
  /-- MOV B, imm: opcode 0x7 (R135). -/
  | movBImm (imm : Nibble)
  /-- UND8: opcode 0x8, halts (R170). -/
  | und8 (low : Nibble)
  /-- OUT B: opcode 0x9 (R150). -/
  | outB (low : Nibble)
  /-- UNDA: opcode 0xA, halts (R171). -/
  | undA (low : Nibble)
  /-- OUT imm: opcode 0xB (R151). -/
  | outImm (imm : Nibble)
  /-- UNDC: opcode 0xC, halts (R172). -/
  | undC (low : Nibble)
  /-- UNDD: opcode 0xD, halts (R173). -/
  | undD (low : Nibble)
  /-- JNC imm: opcode 0xE (R160). -/
  | jncImm (imm : Addr)
  /-- JMP imm: opcode 0xF (R161). -/
  | jmpImm (imm : Addr)
  deriving DecidableEq, Repr

end Sys2Proof
end

