-- ==== Sys2Proof/Config.lean ====
section
/-! DEFINITION. What is fixed for the machine (00_scope.md R10, R11). The source fixes every size, so none is an
argument of the model, and the spec leaves no value free, so there is no opaque constant here. The one parameter the
spec leaves `OPEN` is the parser's whitespace set `WS` (92_eei_decisions.md D12): every parsing function takes it as
an argument, and its default is here. -/

namespace Sys2Proof

/-- The number of entries of the instruction memory (R10: MEM_WORDS, R50). -/
abbrev Config.memWords : Nat := 16

/-- What a memory entry holds that the model does not list: the reset contents of the spec (R33: `MEM[0..15]` is 0
each). -/
abbrev Config.unlisted : Byte := 0#8

/-- The default of the parameter `WS` (30_encoding.md R89): space, tab, LF, vertical tab, form feed and CR. -/
def Config.defaultWS (c : Char) : Bool :=
  c.toNat == 0x20 || c.toNat == 0x09 || c.toNat == 0x0A || c.toNat == 0x0B || c.toNat == 0x0C || c.toNat == 0x0D

end Sys2Proof
end

