-- ==== Sys2Proof/WellFormed.lean ====
section
/-! DEFINITION. Well-formedness. A term of `Instr` has no ill-formed value: its one field is four bits wide by type,
every value of an immediate is legal (30_encoding.md R72), and every value of an ignored nibble is legal and must not
be rejected (R75, R77). What can be ill-formed is a PROGRAM: one longer than the instruction memory is loaded only in
part (20_memory.md R54). -/

namespace Sys2Proof

/-- Every instruction term is well formed (R72, R75, R76, R77); one line per constructor, so that a later constructor
cannot slip past. -/
def Instr.wellFormed : Instr → Bool
  | .addA _ => true
  | .movAB _ => true
  | .inA _ => true
  | .movAImm _ => true
  | .movBA _ => true
  | .addB _ => true
  | .inB _ => true
  | .movBImm _ => true
  | .und8 _ => true
  | .outB _ => true
  | .undA _ => true
  | .outImm _ => true
  | .undC _ => true
  | .undD _ => true
  | .jncImm _ => true
  | .jmpImm _ => true

/-- A program fits the instruction memory when it has at most 16 instructions and each is well formed; `load` discards
what lies past the 16th entry (R54). -/
def Program.wellFormed (p : List Instr) : Bool :=
  p.length ≤ Config.memWords && p.all Instr.wellFormed

end Sys2Proof
end

