-- ==== Sys2Proof/Decode.lean ====
section
/-! DEFINITION. The decoder and, after it, the encoder (30_encoding.md R70 to R78): one format `W8`, opcode in bits
7:4 and immediate in bits 3:0. -/

namespace Sys2Proof

/-- The opcode field `w[7:4]` (R70, R71). -/
def opcOf (w : Byte) : Nibble := w.extractLsb' 4 4

/-- The immediate field `w[3:0]`, an unsigned value that is never extended, scaled or shifted (R71, R72). -/
def immOf (w : Byte) : Nibble := w.extractLsb' 0 4

/-- The instruction an 8-bit word stands for (R74). The match is on the word's upper four bits, bit 7 first, as R74
writes its patterns; it has 16 arms and no wildcard (R76, R105, 90_conflicts.md C8). -/
def decodeWord (w : Byte) : Instr :=
  match w.getLsbD 7, w.getLsbD 6, w.getLsbD 5, w.getLsbD 4 with
  | false, false, false, false => .addA (immOf w)
  | false, false, false, true  => .movAB (immOf w)
  | false, false, true,  false => .inA (immOf w)
  | false, false, true,  true  => .movAImm (immOf w)
  | false, true,  false, false => .movBA (immOf w)
  | false, true,  false, true  => .addB (immOf w)
  | false, true,  true,  false => .inB (immOf w)
  | false, true,  true,  true  => .movBImm (immOf w)
  | true,  false, false, false => .und8 (immOf w)
  | true,  false, false, true  => .outB (immOf w)
  | true,  false, true,  false => .undA (immOf w)
  | true,  false, true,  true  => .outImm (immOf w)
  | true,  true,  false, false => .undC (immOf w)
  | true,  true,  false, true  => .undD (immOf w)
  | true,  true,  true,  false => .jncImm (immOf w)
  | true,  true,  true,  true  => .jmpImm (immOf w)

/-- Why a sequence of bytes is not read as an instruction. -/
inductive DecodeReject where
  /-- There is no byte to read. No word is rejected (R76, R77). -/
  | noByte
  deriving DecidableEq, Repr

/-- Reads one instruction from the front of a byte sequence and answers it with the rest. Every instruction is exactly
one word, so its length is never looked for (R78). -/
def decode : List Byte → Except DecodeReject (Instr × List Byte)
  | [] => .error .noByte
  | w :: rest => .ok (decodeWord w, rest)

/-- The opcode of an instruction (R74's first column). -/
def Instr.opcode : Instr → Nibble
  | .addA _ => 0x0
  | .movAB _ => 0x1
  | .inA _ => 0x2
  | .movAImm _ => 0x3
  | .movBA _ => 0x4
  | .addB _ => 0x5
  | .inB _ => 0x6
  | .movBImm _ => 0x7
  | .und8 _ => 0x8
  | .outB _ => 0x9
  | .undA _ => 0xA
  | .outImm _ => 0xB
  | .undC _ => 0xC
  | .undD _ => 0xD
  | .jncImm _ => 0xE
  | .jmpImm _ => 0xF

/-- The low nibble of an instruction's word: its immediate, or the bits it ignores (R73, R75). -/
def Instr.lowNibble : Instr → Nibble
  | .addA imm => imm
  | .movAB low => low
  | .inA imm => imm
  | .movAImm imm => imm
  | .movBA low => low
  | .addB imm => imm
  | .inB imm => imm
  | .movBImm imm => imm
  | .und8 low => low
  | .outB low => low
  | .undA low => low
  | .outImm imm => imm
  | .undC low => low
  | .undD low => low
  | .jncImm imm => imm
  | .jmpImm imm => imm

/-- The word of an instruction: opcode in bits 7:4, low nibble in bits 3:0 (R70, R74). -/
def encodeWord (i : Instr) : Byte := i.opcode ++ i.lowNibble

/-- The bytes of an instruction: its one word (R78). -/
def encode (i : Instr) : List Byte := [encodeWord i]

/-- The mnemonic of an instruction as spec/opcode_table.json spells it (R74). -/
def Instr.mnemonic : Instr → String
  | .addA _ => "ADD_A__imm"
  | .movAB _ => "MOV_A__B"
  | .inA _ => "IN_A"
  | .movAImm _ => "MOV_A__imm"
  | .movBA _ => "MOV_B__A"
  | .addB _ => "ADD_B__imm"
  | .inB _ => "IN_B"
  | .movBImm _ => "MOV_B__imm"
  | .und8 _ => "UND8"
  | .outB _ => "OUT_B"
  | .undA _ => "UNDA"
  | .outImm _ => "OUT_imm"
  | .undC _ => "UNDC"
  | .undD _ => "UNDD"
  | .jncImm _ => "JNC_imm"
  | .jmpImm _ => "JMP_imm"

/-- One row of the opcode table: a word `w` is the row's when `w &&& mask = pattern`. -/
structure OpcodeRow where
  /-- The row's "mnemonic". -/
  mnemonic : String
  /-- The row's "mask". -/
  mask : Byte
  /-- The row's "match". -/
  pattern : Byte
  deriving DecidableEq, Repr

/-- spec/opcode_table.json as data (R74): mnemonic, mask and match of its 16 rows, in the table's order. -/
def opcodeTable : List OpcodeRow :=
  [ ⟨"ADD_A__imm", 0xF0, 0x00⟩, ⟨"MOV_A__B", 0xF0, 0x10⟩, ⟨"IN_A", 0xF0, 0x20⟩, ⟨"MOV_A__imm", 0xF0, 0x30⟩,
    ⟨"MOV_B__A", 0xF0, 0x40⟩, ⟨"ADD_B__imm", 0xF0, 0x50⟩, ⟨"IN_B", 0xF0, 0x60⟩, ⟨"MOV_B__imm", 0xF0, 0x70⟩,
    ⟨"UND8", 0xF0, 0x80⟩, ⟨"OUT_B", 0xF0, 0x90⟩, ⟨"UNDA", 0xF0, 0xA0⟩, ⟨"OUT_imm", 0xF0, 0xB0⟩,
    ⟨"UNDC", 0xF0, 0xC0⟩, ⟨"UNDD", 0xF0, 0xD0⟩, ⟨"JNC_imm", 0xF0, 0xE0⟩, ⟨"JMP_imm", 0xF0, 0xF0⟩ ]

/-- A word whose opcode is one of 0x8, 0xA, 0xC, 0xD: a halting word (00_scope.md R17, R76). -/
def isHaltingWord (w : Byte) : Bool :=
  opcOf w == 0x8 || opcOf w == 0xA || opcOf w == 0xC || opcOf w == 0xD

/-- The byte of an instruction whose bits, numbered as the opcode table numbers them, are `w` of which `nbits` are
given; the bits above `nbits` are 0, and the longest instruction has eight bits (R78). -/
def tableByte (nbits w : Nat) : Byte := BitVec.ofNat 8 (w % 2 ^ nbits)

/-- What the decoder reads from a word of the opcode table, laid out as memory holds it: one entry (R57, R70). -/
def decodeTableWord (nbits w : Nat) : Option Instr :=
  match decode [tableByte nbits w] with
  | .ok (i, _) => some i
  | .error _ => none

end Sys2Proof
end

