-- ==== Sys2Proof/Machine/State.lean ====
section
/-! DEFINITION. The state of the machine (10_state.md R20): exactly eight elements and nothing else (R35: no state is
hidden). There is no field of the model's own. -/

namespace Sys2Proof.Machine

/-- The instruction memory `MEM[0..15]` (20_memory.md R50), as the list of the entries that differ from what an
unlisted entry reads as (`Config.unlisted`), addresses strictly rising and below 16 (`Memory.wf`, Machine/Ops.lean). -/
abbrev Memory := List Host.Cell

/-- The Processor State (R20). Widths are those of R10, so R21's width invariant holds by construction. -/
structure State where
  /-- `A`, 4-bit unsigned (R22). -/
  registerA : Nibble
  /-- `B`, 4-bit unsigned (R23). -/
  registerB : Nibble
  /-- `PC`, 4-bit unsigned, indexes memory (R25). -/
  programCounter : Addr
  /-- `OUT`, 4-bit unsigned, the last value written to the output port (R28). -/
  output : Nibble
  /-- `C`, one bit, written by the additions only (R26). -/
  carryFlag : Bit
  /-- `MEM[0..15]`, 16 entries of 8 bits (R50). -/
  memory : Memory
  /-- `RUNNING`, owned by the host; no core rule reads it (R31). -/
  running : Bool
  /-- `HALTED`, set by a halting opcode, cleared by `reset` and `load` only (R30). -/
  halted : Bool
  deriving DecidableEq, Repr

/-- Why the machine stops with a fault: never. The core raises no exception and no operation of it fails
(60_exceptions.md R180, 40_step.md R113), so there is no constructor. Nobody raises one; that is neither safe nor
unsafe, it is the spec's own rule. A halting opcode is no fault: it has a next state, with `HALTED` set (R170). -/
inductive Fault where
  deriving DecidableEq, Repr

/-- Why an instruction has no meaning. -/
inductive Refusal where
  /-- The instruction is not modelled. Raised only by an arm of `exec` that rejects by name; every instruction of this
  model has its meaning, so no arm raises it. Safe: the model stops where the hardware goes on. -/
  | notModelled (mnemonic : String)
  deriving DecidableEq, Repr

/-- The machine right after `reset` (R33, 70_reset_and_hazards.md R200): every element zero or false. -/
def State.reset : State where
  registerA := 0
  registerB := 0
  programCounter := 0
  output := 0
  carryFlag := 0
  memory := []
  running := false
  halted := false

end Sys2Proof.Machine
end

