-- ==== Sys2Proof/Machine/Ops.lean ====
section
/-! DEFINITION. The named operations over memory and registers. Every read and write of a state element goes through
one of these. THERE IS NO TAKING OF AN EXCEPTION AND NO RETURN FROM ONE TO DEFINE: the core raises none, has no trap
entry, no saved state, no vector and no trap return (60_exceptions.md R180, R185, R186). The one event that leaves
normal sequencing is the halt (R181), and `State.halt` is its one shared operation. -/

namespace Sys2Proof.Machine

/-! ### Memory (20_memory.md) -/

/-- The entry listed at address `a`, or what an unlisted entry reads as. -/
def Memory.lookup : Memory → Nat → Byte
  | [], _ => Config.unlisted
  | (k, v) :: rest, a => if k = a then v else Memory.lookup rest a

/-- `MemRead(a, 1)`: the entry at a 4-bit address. Every address names an entry, so no read can fail (R58, R61). -/
def Memory.read (m : Memory) (a : Addr) : Byte := m.lookup a.toNat

/-- The list with entry `a` set to `v`, in canonical form: an entry equal to `Config.unlisted` is not listed. -/
def Memory.insert : Memory → Nat → Byte → Memory
  | [], a, v => if v = Config.unlisted then [] else [(a, v)]
  | (k, u) :: rest, a, v =>
    if a < k then
      if v = Config.unlisted then (k, u) :: rest else (a, v) :: (k, u) :: rest
    else if a = k then
      if v = Config.unlisted then rest else (a, v) :: rest
    else (k, u) :: Memory.insert rest a v

/-- `MEM[a] <- v`; only `load` writes memory (R53). -/
def Memory.write (m : Memory) (a : Addr) (v : Byte) : Memory := m.insert a.toNat v

/-- The addresses of the list are strictly rising from `lo` on and below 16, and no listed entry equals what an
unlisted one reads as. -/
def Memory.wfFrom (lo : Nat) : Memory → Bool
  | [] => true
  | (k, v) :: rest => lo ≤ k && k < Config.memWords && v != Config.unlisted && Memory.wfFrom (k + 1) rest

/-- The canonical form of the memory list. -/
def Memory.wf (m : Memory) : Bool := m.wfFrom 0

/-- `MEM[0..15]` written out, entry `i` at place `i` (R50: insertion order is address order). -/
def Memory.entries (m : Memory) : List Byte := (List.range Config.memWords).map m.lookup

/-! ### One write per state element (10_state.md) -/

/-- `A <- v` (R22). -/
def State.setA (s : State) (v : Nibble) : State := { s with registerA := v }

/-- `B <- v` (R23). -/
def State.setB (s : State) (v : Nibble) : State := { s with registerB := v }

/-- `PC <- v` (R25). -/
def State.setPc (s : State) (v : Addr) : State := { s with programCounter := v }

/-- `OUT <- v` (R28). -/
def State.setOut (s : State) (v : Nibble) : State := { s with output := v }

/-- `C <- v` (R26). -/
def State.setCarry (s : State) (v : Bit) : State := { s with carryFlag := v }

/-- The memory as a whole replaced (R53: by `reset` and `load` only). -/
def State.setMem (s : State) (m : Memory) : State := { s with memory := m }

/-- `RUNNING <- v`, by the host only (R31). -/
def State.setRunning (s : State) (v : Bool) : State := { s with running := v }

/-- `HALTED <- v` (R30). -/
def State.setHalted (s : State) (v : Bool) : State := { s with halted := v }

/-! ### Shared operations of the step (40_step.md) -/

/-- The word at the program counter (R102), the only memory read of the core (R52). -/
def State.fetchWord (s : State) : Byte := s.memory.read s.programCounter

/-- `PC <- (pc0 + 1) mod 16`: 4-bit addition wraps, so 15 is followed by 0 (R25, R103). -/
def State.advancePc (s : State) : State := s.setPc (s.programCounter + 1)

/-- The halt event (R181): `HALTED <- true` and nothing else; no address is saved, no vector is taken (R185). -/
def State.halt (s : State) : State := s.setHalted true

/-- The start of a step: nothing when `HALTED` is true (R101), else the decoded instruction at the program counter and
the state with the program counter advanced, in which the instruction's own effect is taken (R102, R103, R104, R112). -/
def State.beginStep (s : State) : Option (Instr × State) :=
  if s.halted then none else some (decodeWord s.fetchWord, s.advancePc)

/-- `w` stored where the next step fetches, and the machine not halted, so that the step does fetch. -/
def State.placeWord (s : State) (w : Byte) : State :=
  (s.setMem (s.memory.write s.programCounter w)).setHalted false

end Sys2Proof.Machine
end

