-- ==== Sys2Proof/Machine/Flags.lean ====
section
/-! DEFINITION. The ALU and its one flag (41_alu_add.md R120): a 4-bit adder with a carry-out, no carry-in, no other
operation. The machine has no flag but `C` (10_state.md R27). -/

namespace Sys2Proof.Machine

/-- The 5-bit sum `zext_5(x) + zext_5(y)`, 0 to 30 (R120). -/
def aluSum (x y : Nibble) : BitVec 5 := x.setWidth 5 + y.setWidth 5

/-- The result `s[3:0]` (R120). -/
def aluResult (x y : Nibble) : Nibble := (aluSum x y).extractLsb' 0 4

/-- The carry-out `s[4]`: 1 if the unmasked sum exceeds 15, else 0 (R120, R123). The old `C` is no input. -/
def aluCarry (x y : Nibble) : Bit := (aluSum x y).extractLsb' 4 1

end Sys2Proof.Machine
end

