-- ==== Sys2Proof/Machine/Operands.lean ====
section
/-! DEFINITION. The operand forms (30_encoding.md R73) and the machine's data paths over them (42_transfer.md R138):
register to register, immediate to register, register or immediate to `OUT`, the adder, and an immediate to `PC`. -/

namespace Sys2Proof.Machine

/-- Where an operand is read from (R73's column "source(s)"). -/
inductive Src where
  /-- Register `A`. -/
  | regA
  /-- Register `B`. -/
  | regB
  /-- The immediate (R72). -/
  | imm (n : Nibble)
  deriving DecidableEq, Repr

/-- What a 4-bit result is written to (R73's column "destination"). -/
inductive Dst where
  /-- Register `A`. -/
  | regA
  /-- Register `B`. -/
  | regB
  /-- The output register `OUT`. -/
  | out
  /-- The program counter: a jump's absolute target (R162). -/
  | pc
  deriving DecidableEq, Repr

/-- The value of a source operand. -/
def State.readSrc (s : State) : Src → Nibble
  | .regA => s.registerA
  | .regB => s.registerB
  | .imm n => n

/-- The state with a result written to its destination. -/
def State.writeDst (s : State) (v : Nibble) : Dst → State
  | .regA => s.setA v
  | .regB => s.setB v
  | .out => s.setOut v
  | .pc => s.setPc v

/-- `dst <- src`: no flag is written (R137). -/
def State.move (s : State) (d : Dst) (x : Src) : State := s.writeDst (s.readSrc x) d

/-- `(dst, C) <- alu_add(x, y)`: both operands are read before either result is written (R121, R122, R123). -/
def State.add (s : State) (d : Dst) (x y : Src) : State :=
  (s.writeDst (aluResult (s.readSrc x) (s.readSrc y)) d).setCarry (aluCarry (s.readSrc x) (s.readSrc y))

end Sys2Proof.Machine
end

