-- ==== Sys2Proof/Machine/Alu.lean ====
section
/-! DEFINITION. The ADD family (41_alu_add.md). A meaning is given the state after the step's fetch and advance, so
`PC` already holds `(pc0 + 1) mod 16` (40_step.md R112). -/

namespace Sys2Proof.Machine

/-- ADD A, imm: `(A, C) <- alu_add(A, imm)` (R121). -/
def execAddA (imm : Nibble) (s : State) : Host.Outcome State Fault Refusal := .next (s.add .regA .regA (.imm imm))

/-- ADD B, imm: `(B, C) <- alu_add(B, imm)` (R122). -/
def execAddB (imm : Nibble) (s : State) : Host.Outcome State Fault Refusal := .next (s.add .regB .regB (.imm imm))

end Sys2Proof.Machine
end

