-- ==== Sys2Proof/Machine/Control.lean ====
section
/-! DEFINITION. Control transfer (44_control.md). Both jumps are absolute and overwrite the advanced `PC` (R162). -/

namespace Sys2Proof.Machine

/-- JNC imm: `PC <- imm` when `C` is 0, else `PC` keeps the advanced value (R160). -/
def execJncImm (imm : Addr) (s : State) : Host.Outcome State Fault Refusal :=
  .next (if s.carryFlag = 0#1 then s.move .pc (.imm imm) else s)

/-- JMP imm: `PC <- imm` (R161). -/
def execJmpImm (imm : Addr) (s : State) : Host.Outcome State Fault Refusal := .next (s.move .pc (.imm imm))

end Sys2Proof.Machine
end

