-- ==== Sys2Proof/Machine/Halt.lean ====
section
/-! DEFINITION. The halting opcodes (45_halt.md): the halt is "a modeled outcome (`halted = true`), not an error", so
each has a next state; `PC` keeps the advanced value (90_conflicts.md C3, 92_eei_decisions.md D6). -/

namespace Sys2Proof.Machine

/-- UND8: `HALTED <- true` (R170). -/
def execUnd8 (s : State) : Host.Outcome State Fault Refusal := .next s.halt

/-- UNDA: `HALTED <- true` (R171). -/
def execUndA (s : State) : Host.Outcome State Fault Refusal := .next s.halt

/-- UNDC: `HALTED <- true` (R172). -/
def execUndC (s : State) : Host.Outcome State Fault Refusal := .next s.halt

/-- UNDD: `HALTED <- true` (R173). -/
def execUndD (s : State) : Host.Outcome State Fault Refusal := .next s.halt

end Sys2Proof.Machine
end

