-- ==== Sys2Proof/Machine/Output.lean ====
section
/-! DEFINITION. The output family (43_output.md). The output port is the register `OUT` (R152). -/

namespace Sys2Proof.Machine

/-- OUT B: `OUT <- B` (R150). -/
def execOutB (s : State) : Host.Outcome State Fault Refusal := .next (s.move .out .regB)

/-- OUT imm: `OUT <- imm` (R151). -/
def execOutImm (imm : Nibble) (s : State) : Host.Outcome State Fault Refusal := .next (s.move .out (.imm imm))

end Sys2Proof.Machine
end

