-- ==== Sys2Proof/Machine/Transfer.lean ====
section
/-! DEFINITION. Register transfer and immediate load (42_transfer.md). No instruction here writes `C` (R137). -/

namespace Sys2Proof.Machine

/-- MOV A, B: `A <- B` (R130). -/
def execMovAB (s : State) : Host.Outcome State Fault Refusal := .next (s.move .regA .regB)

/-- IN A: `A <- imm`; there is no input port to read (R131, 92_eei_decisions.md D16). -/
def execInA (imm : Nibble) (s : State) : Host.Outcome State Fault Refusal := .next (s.move .regA (.imm imm))

/-- MOV A, imm: `A <- imm` (R132). -/
def execMovAImm (imm : Nibble) (s : State) : Host.Outcome State Fault Refusal := .next (s.move .regA (.imm imm))

/-- MOV B, A: `B <- A` (R133). -/
def execMovBA (s : State) : Host.Outcome State Fault Refusal := .next (s.move .regB .regA)

/-- IN B: `B <- imm`; there is no input port to read (R134, 92_eei_decisions.md D16). -/
def execInB (imm : Nibble) (s : State) : Host.Outcome State Fault Refusal := .next (s.move .regB (.imm imm))

/-- MOV B, imm: `B <- imm` (R135). -/
def execMovBImm (imm : Nibble) (s : State) : Host.Outcome State Fault Refusal := .next (s.move .regB (.imm imm))

end Sys2Proof.Machine
end

