-- ==== Sys2Proof/Machine/Dispatch.lean ====
section
/-! DEFINITION. Dispatch (40_step.md R105): exactly one arm runs, one arm per opcode, no wildcard. -/

namespace Sys2Proof.Machine

def exec (i : Instr) (s : State) : Host.Outcome State Fault Refusal :=
  match i with
  | .addA imm => Sys2Proof.Machine.execAddA imm s
  | .movAB _ => Sys2Proof.Machine.execMovAB s
  | .inA imm => Sys2Proof.Machine.execInA imm s
  | .movAImm imm => Sys2Proof.Machine.execMovAImm imm s
  | .movBA _ => Sys2Proof.Machine.execMovBA s
  | .addB imm => Sys2Proof.Machine.execAddB imm s
  | .inB imm => Sys2Proof.Machine.execInB imm s
  | .movBImm imm => Sys2Proof.Machine.execMovBImm imm s
  | .und8 _ => Sys2Proof.Machine.execUnd8 s
  | .outB _ => Sys2Proof.Machine.execOutB s
  | .undA _ => Sys2Proof.Machine.execUndA s
  | .outImm imm => Sys2Proof.Machine.execOutImm imm s
  | .undC _ => Sys2Proof.Machine.execUndC s
  | .undD _ => Sys2Proof.Machine.execUndD s
  | .jncImm imm => Sys2Proof.Machine.execJncImm imm s
  | .jmpImm imm => Sys2Proof.Machine.execJmpImm imm s

end Sys2Proof.Machine
end

