-- ==== Sys2Proof/Machine/Step.lean ====
section
/-! DEFINITION. One step (40_step.md R108): fetch, advance, decode, dispatch, as one atomic transition (R109). The
mask of R106 is left out, as that rule allows: every register has its width by type. -/

namespace Sys2Proof.Machine

/-- `step()` as a transition of the state: no change when halted (R101), else one instruction run on the state whose
`PC` is already advanced (R112). Its Boolean result is `stepCommand`'s (Machine/HostOps.lean, R107). -/
def step (s : State) : Host.Outcome State Fault Refusal :=
  match s.beginStep with
  | none => .next s
  | some (i, t) => exec i t

/-- `s` with the instruction of the opcode table's word `w` where the next step fetches, and not halted. -/
def State.withFetchWord (s : State) (nbits w : Nat) : State := s.placeWord (tableByte nbits w)

end Sys2Proof.Machine
end

