-- ==== Sys2Proof/Machine/HostOps.lean ====
section
/-! DEFINITION. The host's five operations (60_exceptions.md R194), the block's interface (92_eei_decisions.md D2), and
the host's loops over them. Each operation is one atomic transition; operations never overlap and form one total order
(20_memory.md R62, D10), so a history of the machine is a list of them. -/

namespace Sys2Proof.Machine

/-! ### `step` as a command (40_step.md R100, R107, R113) -/

/-- `step()` with its continue bit: the state after the step, and whether that state is not halted (R107, D23). A step
never faults (`Fault` has no constructor), and never refuses, since every instruction has its meaning. -/
def State.stepCommand (s : State) : State × Bool :=
  match step s with
  | .next t => (t, !t.halted)
  | .fault f => nomatch f
  | .refused _ => (s, false)

/-- The step relation, defined from that function (R113). -/
def StepsTo (s : State) (continues : Bool) (t : State) : Prop := s.stepCommand = (t, continues)

/-- `n` successive calls of `step` with no other operation between them (R114). -/
def State.stepN : Nat → State → State
  | 0, s => s
  | n + 1, s => State.stepN n s.stepCommand.1

/-! ### `reset` and `load` (70_reset_and_hazards.md R200, 20_memory.md R54) -/

/-- `reset()`: every element to its zero value, from any state (R200, D15). -/
def State.resetOp (_ : State) : State := State.reset

/-- The copying loop of `load`: entry `i` onward is written with the values of the list, and what would go past the
16th entry is discarded (R54). -/
def Memory.copyFrom (m : Memory) (i : Nat) : List Byte → Memory
  | [] => m
  | v :: rest => if i < Config.memWords then (m.write (BitVec.ofNat 4 i) v).copyFrom (i + 1) rest else m

/-- `load(p)`: a reset, then the copy into memory from address 0 (R54, R202). Entries are 8-bit values (R55, D4). -/
def State.loadOp (s : State) (p : List Byte) : State := s.resetOp.setMem (s.resetOp.memory.copyFrom 0 p)

/-- `load` for a caller whose integers are wider: an entry `v` is stored as `v mod 256` (R55, D4). -/
def State.loadWide (s : State) (p : List Nat) : State := s.loadOp (p.map (BitVec.ofNat 8))

/-! ### `getState` and the output port (10_state.md R34) -/

/-- The record `getState()` returns (R34), an independent copy. -/
structure Snapshot where
  /-- `registerA`. -/
  registerA : Nibble
  /-- `registerB`. -/
  registerB : Nibble
  /-- `programCounter`. -/
  programCounter : Addr
  /-- `output`. -/
  output : Nibble
  /-- `carryFlag`. -/
  carryFlag : Bit
  /-- `memory`: 16 entries, in address order. -/
  memory : List Byte
  /-- `running`. -/
  running : Bool
  /-- `halted`. -/
  halted : Bool
  deriving DecidableEq, Repr

/-- `getState()` (R34): every element of R20 (R35). -/
def State.snapshot (s : State) : Snapshot where
  registerA := s.registerA
  registerB := s.registerB
  programCounter := s.programCounter
  output := s.output
  carryFlag := s.carryFlag
  memory := s.memory.entries
  running := s.running
  halted := s.halted

/-- The output port `out[3:0]`: it always shows `OUT` (D2, D22, R152). -/
def State.outPort (s : State) : Nibble := s.output

/-- The address of the halting word, which a host recovers from a snapshot of a halted machine as `(PC - 1) mod 16`
(R181). -/
def State.haltAddress (s : State) : Addr := s.programCounter - 1

/-! ### The host's moves (R194) -/

/-- What the host can do; it has no other move. -/
inductive HostOp where
  /-- `reset()`. -/
  | reset
  /-- `load(p)`, with a sequence of 8-bit values of any length. -/
  | load (p : List Byte)
  /-- `step()`. -/
  | step
  /-- `getState()`. -/
  | getState
  /-- A write of the bit `RUNNING` (R31, D9). -/
  | setRunning (v : Bool)
  deriving DecidableEq, Repr

/-- What the host gets back. -/
inductive HostReply where
  /-- Nothing. -/
  | nothing
  /-- `step`'s continue bit. -/
  | continues (b : Bool)
  /-- `getState`'s snapshot. -/
  | state (v : Snapshot)
  deriving DecidableEq, Repr

/-- The effect and the reply of a host operation (R194's table). `getState` changes no state (D24), and a write of
`RUNNING` changes `RUNNING` only. -/
def State.hostOp (s : State) : HostOp → State × HostReply
  | .reset => (s.resetOp, .nothing)
  | .load p => (s.loadOp p, .nothing)
  | .step => (s.stepCommand.1, .continues s.stepCommand.2)
  | .getState => (s, .state s.snapshot)
  | .setRunning v => (s.setRunning v, .nothing)

/-- The state after a list of host operations, first operation first. -/
def State.runHost : List HostOp → State → State
  | [], s => s
  | op :: rest, s => State.runHost rest (s.hostOp op).1

/-! ### Continuous execution, a host loop (R114, R195, R211) -/

/-- How a driven run stops. -/
inductive RunEnd where
  /-- The run ended: a `step` returned false, and left this state (R211). -/
  | ended (final : State)
  /-- The driver made all its calls of `step` and each returned true; this is no end of the run (R211, D11). -/
  | outOfFuel (now : State)
  deriving DecidableEq, Repr

/-- A driver that calls `step` until it returns false, at most `fuel` times (R195, R211). -/
def State.drive : Nat → State → RunEnd
  | 0, s => .outOfFuel s
  | fuel + 1, s => if s.stepCommand.2 then State.drive fuel s.stepCommand.1 else .ended s.stepCommand.1

/-- The host's instruction count over `n` calls of `step` (R189): the calls that returned true, plus one for a call
that caused a halt. -/
def State.countInstructions : Nat → State → Nat
  | 0, _ => 0
  | n + 1, s =>
    (if s.stepCommand.2 then 1 else if s.stepCommand.1.halted && !s.halted then 1 else 0)
      + State.countInstructions n s.stepCommand.1

end Sys2Proof.Machine
end

