-- ==== Sys2Proof/Machine/Pseudocode.lean ====
section
/-! DEFINITION. The whole step once more, written line by line after the spec's pseudocode (40_step.md R108) on plain
natural numbers, with its masks (R106) and no bit vector: a second reading of the spec, which the machine's own `step`
is claimed to refine. Nothing of the model calls it. -/

namespace Sys2Proof.Machine

/-- The Processor State by the pseudocode's names (00_scope.md R14), as unbounded numbers. -/
structure Plain where
  /-- Register `A`. -/
  A : Nat
  /-- Register `B`. -/
  B : Nat
  /-- The program counter. -/
  PC : Nat
  /-- The output register. -/
  OUT : Nat
  /-- The carry flag. -/
  C : Nat
  /-- The instruction memory, entry `i` at place `i`. -/
  MEM : List Nat
  /-- The running bit. -/
  RUNNING : Bool
  /-- The halted bit. -/
  HALTED : Bool
  deriving DecidableEq, Repr

/-- The state's values as numbers. -/
def State.plain (s : State) : Plain where
  A := s.registerA.toNat
  B := s.registerB.toNat
  PC := s.programCounter.toNat
  OUT := s.output.toNat
  C := s.carryFlag.toNat
  MEM := s.memory.entries.map BitVec.toNat
  RUNNING := s.running
  HALTED := s.halted

/-- The arms of R108. A number that is no 4-bit opcode changes nothing; an 8-bit word has none. -/
def Plain.dispatch (p : Plain) (opc imm : Nat) : Plain :=
  match opc with
  | 0x0 => { p with A := (p.A + imm) % 16, C := if p.A + imm > 15 then 1 else 0 }
  | 0x1 => { p with A := p.B }
  | 0x2 => { p with A := imm }
  | 0x3 => { p with A := imm }
  | 0x4 => { p with B := p.A }
  | 0x5 => { p with B := (p.B + imm) % 16, C := if p.B + imm > 15 then 1 else 0 }
  | 0x6 => { p with B := imm }
  | 0x7 => { p with B := imm }
  | 0x8 => { p with HALTED := true }
  | 0x9 => { p with OUT := p.B }
  | 0xA => { p with HALTED := true }
  | 0xB => { p with OUT := imm }
  | 0xC => { p with HALTED := true }
  | 0xD => { p with HALTED := true }
  | 0xE => if p.C = 0 then { p with PC := imm } else p
  | 0xF => { p with PC := imm }
  | _ => p

/-- The mask after dispatch (R106). -/
def Plain.mask (p : Plain) : Plain :=
  { p with A := p.A &&& 0xF, B := p.B &&& 0xF, PC := p.PC &&& 0xF, OUT := p.OUT &&& 0xF }

/-- `step()` (R108) with its result. -/
def Plain.step (p : Plain) : Plain × Bool :=
  if p.HALTED then (p, false)
  else
    let w := p.MEM.getD p.PC 0
    let q := (Plain.dispatch { p with PC := (p.PC + 1) % 16 } (w / 16) (w % 16)).mask
    (q, !q.HALTED)

end Sys2Proof.Machine
end

