-- ==== Sys2Proof/Machine/Text.lean ====
section
/-! DEFINITION. The machine's assembler syntax, which is host tooling (00_scope.md R6; 30_encoding.md R79 to R92): the
program-text parser, the formatting helpers and the disassembly spelling. Texts are lists of characters. Every function
that looks at whitespace takes the spec's open parameter `WS` as its argument `ws` (R89, 92_eei_decisions.md D12);
`Config.defaultWS` is the spec's default. -/

namespace Sys2Proof.Machine

/-- What `parseProgram` answers. -/
inductive ParseResult where
  /-- The values of the valid lines, in text order (R87). -/
  | words (p : List Byte)
  /-- `ParseError`, with the offending line trimmed of surrounding whitespace, any inline comment kept (R85, R182, D13). -/
  | parseError (line : List Char)
  deriving DecidableEq, Repr

/-- The lines of a text: a line ends at LF; a CR is whitespace, not a line end (R81, D14). -/
def splitLines : List Char → List (List Char)
  | [] => [[]]
  | c :: rest =>
    if c = '\n' then [] :: splitLines rest
    else match splitLines rest with
      | [] => [[c]]
      | line :: lines => (c :: line) :: lines

/-- A text without its surrounding whitespace (R82). -/
def trim (ws : Char → Bool) (t : List Char) : List Char := ((t.dropWhile ws).reverse.dropWhile ws).reverse

/-- Whether a text begins with `//`. -/
def beginsComment : List Char → Bool
  | '/' :: '/' :: _ => true
  | _ => false

/-- The text before the first `//` (R83). -/
def cutComment : List Char → List Char
  | [] => []
  | c :: rest => if beginsComment (c :: rest) then [] else c :: cutComment rest

/-- A line is skipped when, trimmed, it is empty or begins with `//` (R82). -/
def isSkipped (ws : Char → Bool) (line : List Char) : Bool := (trim ws line).isEmpty || beginsComment (trim ws line)

/-- The instruction text of a line: cut at the first `//`, trimmed (R83), then all whitespace removed (R84). -/
def instructionText (ws : Char → Bool) (line : List Char) : List Char :=
  (trim ws (cutComment (trim ws line))).filter fun c => !ws c

/-- Exactly 8 characters, each `0` or `1` (R85). -/
def isBinaryWord (t : List Char) : Bool := t.length == 8 && t.all fun c => c == '0' || c == '1'

/-- The value of a binary text, most significant digit first (R86). -/
def binaryValue (t : List Char) : Nat := t.foldl (fun v c => 2 * v + if c = '1' then 1 else 0) 0

/-- The parser over the lines, in text order: it stops at the first line that fails (R88, D25). -/
def parseLines (ws : Char → Bool) : List (List Char) → ParseResult
  | [] => .words []
  | line :: rest =>
    if isSkipped ws line then parseLines ws rest
    else if isBinaryWord (instructionText ws line) then
      match parseLines ws rest with
      | .words p => .words (BitVec.ofNat 8 (binaryValue (instructionText ws line)) :: p)
      | .parseError l => .parseError l
    else .parseError (trim ws line)

/-- `parseProgram(text)`: a pure function, which reads and changes no state of the core (R81, R88). -/
def parseProgram (ws : Char → Bool) (text : List Char) : ParseResult := parseLines ws (splitLines text)

/-- A value as binary digits, most significant bit first, zero-padded (R90). -/
def renderBits {n : Nat} (v : BitVec n) : List Char :=
  (List.range n).map fun k => if v.getMsbD k then '1' else '0'

/-- `render4`: a 4-bit value as 4 characters (R90). -/
def render4 (v : Nibble) : List Char := renderBits v

/-- `render8`: an 8-bit value as 8 characters (R90). -/
def render8 (v : Byte) : List Char := renderBits v

/-- A decimal immediate, 0 to 15 (R79, D17). -/
def decimal (v : Nibble) : List Char :=
  if v.toNat < 10 then [Nat.digitChar v.toNat] else ['1', Nat.digitChar (v.toNat - 10)]

/-- The disassembly of an instruction: `MNEMONIC dst,src` with a decimal immediate (R79, D17). The halting opcodes have
the spec's names. -/
def disassemble : Instr → List Char
  | .addA imm => "ADD A,".toList ++ decimal imm
  | .movAB _ => "MOV A,B".toList
  | .inA _ => "IN A".toList
  | .movAImm imm => "MOV A,".toList ++ decimal imm
  | .movBA _ => "MOV B,A".toList
  | .addB imm => "ADD B,".toList ++ decimal imm
  | .inB _ => "IN B".toList
  | .movBImm imm => "MOV B,".toList ++ decimal imm
  | .und8 _ => "UND8".toList
  | .outB _ => "OUT B".toList
  | .undA _ => "UNDA".toList
  | .outImm imm => "OUT ".toList ++ decimal imm
  | .undC _ => "UNDC".toList
  | .undD _ => "UNDD".toList
  | .jncImm imm => "JNC ".toList ++ decimal imm
  | .jmpImm imm => "JMP ".toList ++ decimal imm

end Sys2Proof.Machine
end

