-- ==== Sys2Proof/Safety.lean ====
section
/-! DEFINITION. What counts as a safe run, in the terms the statements use. The core cannot fault (60_exceptions.md
R180), so a safe state is one whose memory list is canonical and whose halt, if there is one, has left the halting word
just behind the program counter (R181); a run is safe when it passes through such states only. -/

namespace Sys2Proof.Machine

/-- The invariant of the machine: the memory list is canonical, and in a halted state the word at `(PC - 1) mod 16` is
a halting word (R181). The second part fails only in states that no host operation makes. -/
def State.Inv (s : State) : Prop :=
  s.memory.wf = true ∧ (s.halted = true → isHaltingWord (s.memory.read s.haltAddress) = true)

/-- The states of the machine: those that a list of host operations makes from the state after `reset` (R194, R203). -/
def State.Reachable (s : State) : Prop := ∃ ops : List HostOp, s = State.runHost ops State.reset

/-- A run of `n` steps is safe when each state it passes through answers a next state and meets the invariant. -/
def State.SafeRun (n : Nat) (s : State) : Prop :=
  ∀ k ≤ n, (State.stepN k s).Inv ∧ ∃ t, step (State.stepN k s) = .next t

/-- An operation of the host that is neither `reset` nor `load`: the ones that may stand between two loads (R62). -/
def HostOp.keepsProgram : HostOp → Bool
  | .reset => false
  | .load _ => false
  | .step => true
  | .getState => true
  | .setRunning _ => true

end Sys2Proof.Machine
end

