-- ==== Sys2Proof/Certificates/Slice0/Obligations.lean ====
section
/-! DEFINITION. The statements about the TD4 core, from the numbered rules of spec/. A result is written as a whole next
state, so each such statement is the instruction's completion and its frame at once. `exec` is given the state whose
`PC` is already advanced (40_step.md R112); the clauses about `stepCommand` start from the state before the fetch. -/

open Sys2Proof Sys2Proof.Machine

/-! ### The instructions (41 to 45) -/

/-- ADD A, imm (R121): word `0000 iiii`; `A` gets the sum modulo 16 and `C` gets 1 when the unmasked sum exceeds 15,
else 0; nothing else changes but the step's advance of `PC`; the step returns true. -/
def Obligations.AddAImmWritesSumAndCarry : Prop :=
  ∀ (imm : BitVec 4) (s : State),
    let sum := s.registerA.toNat + imm.toNat
    let c : BitVec 1 := if sum > 15 then 1 else 0
    decodeWord (0x0#4 ++ imm) = .addA imm ∧
    exec (.addA imm) s = .next { s with registerA := BitVec.ofNat 4 (sum % 16), carryFlag := c } ∧
    (s.halted = false → s.memory.read s.programCounter = 0x0#4 ++ imm →
      s.stepCommand = ({ s with registerA := BitVec.ofNat 4 (sum % 16), carryFlag := c, programCounter := s.programCounter + 1 }, true))

/-- ADD B, imm (R122): word `0101 iiii`; `B` gets the sum modulo 16, `C` is set as for ADD A, `A` is not touched. -/
def Obligations.AddBImmWritesSumAndCarry : Prop :=
  ∀ (imm : BitVec 4) (s : State),
    let sum := s.registerB.toNat + imm.toNat
    let c : BitVec 1 := if sum > 15 then 1 else 0
    decodeWord (0x5#4 ++ imm) = .addB imm ∧
    exec (.addB imm) s = .next { s with registerB := BitVec.ofNat 4 (sum % 16), carryFlag := c } ∧
    (s.halted = false → s.memory.read s.programCounter = 0x5#4 ++ imm →
      s.stepCommand = ({ s with registerB := BitVec.ofNat 4 (sum % 16), carryFlag := c, programCounter := s.programCounter + 1 }, true))

/-- MOV A, B (R130): word `0001 xxxx` with any low nibble; `A <- B`, nothing else. -/
def Obligations.MovABCopiesBToA : Prop :=
  ∀ (low : BitVec 4) (s : State),
    decodeWord (0x1#4 ++ low) = .movAB low ∧
    exec (.movAB low) s = .next { s with registerA := s.registerB } ∧
    (s.halted = false → s.memory.read s.programCounter = 0x1#4 ++ low →
      s.stepCommand = ({ s with registerA := s.registerB, programCounter := s.programCounter + 1 }, true))

/-- IN A (R131): word `0010 iiii`; `A <- imm`. That no input port is read is the spec's decision D16. -/
def Obligations.InALoadsImmediate : Prop :=
  ∀ (imm : BitVec 4) (s : State),
    decodeWord (0x2#4 ++ imm) = .inA imm ∧
    exec (.inA imm) s = .next { s with registerA := imm } ∧
    (s.halted = false → s.memory.read s.programCounter = 0x2#4 ++ imm →
      s.stepCommand = ({ s with registerA := imm, programCounter := s.programCounter + 1 }, true))

/-- MOV A, imm (R132): word `0011 iiii`; `A <- imm`. -/
def Obligations.MovAImmLoadsImmediate : Prop :=
  ∀ (imm : BitVec 4) (s : State),
    decodeWord (0x3#4 ++ imm) = .movAImm imm ∧
    exec (.movAImm imm) s = .next { s with registerA := imm } ∧
    (s.halted = false → s.memory.read s.programCounter = 0x3#4 ++ imm →
      s.stepCommand = ({ s with registerA := imm, programCounter := s.programCounter + 1 }, true))

/-- MOV B, A (R133): word `0100 xxxx` with any low nibble; `B <- A`. -/
def Obligations.MovBACopiesAToB : Prop :=
  ∀ (low : BitVec 4) (s : State),
    decodeWord (0x4#4 ++ low) = .movBA low ∧
    exec (.movBA low) s = .next { s with registerB := s.registerA } ∧
    (s.halted = false → s.memory.read s.programCounter = 0x4#4 ++ low →
      s.stepCommand = ({ s with registerB := s.registerA, programCounter := s.programCounter + 1 }, true))

/-- IN B (R134): word `0110 iiii`; `B <- imm`. That no input port is read is the spec's decision D16. -/
def Obligations.InBLoadsImmediate : Prop :=
  ∀ (imm : BitVec 4) (s : State),
    decodeWord (0x6#4 ++ imm) = .inB imm ∧
    exec (.inB imm) s = .next { s with registerB := imm } ∧
    (s.halted = false → s.memory.read s.programCounter = 0x6#4 ++ imm →
      s.stepCommand = ({ s with registerB := imm, programCounter := s.programCounter + 1 }, true))

/-- MOV B, imm (R135): word `0111 iiii`; `B <- imm`. -/
def Obligations.MovBImmLoadsImmediate : Prop :=
  ∀ (imm : BitVec 4) (s : State),
    decodeWord (0x7#4 ++ imm) = .movBImm imm ∧
    exec (.movBImm imm) s = .next { s with registerB := imm } ∧
    (s.halted = false → s.memory.read s.programCounter = 0x7#4 ++ imm →
      s.stepCommand = ({ s with registerB := imm, programCounter := s.programCounter + 1 }, true))

/-- OUT B (R150): word `1001 xxxx` with any low nibble; `OUT <- B`. -/
def Obligations.OutBCopiesBToOutput : Prop :=
  ∀ (low : BitVec 4) (s : State),
    decodeWord (0x9#4 ++ low) = .outB low ∧
    exec (.outB low) s = .next { s with output := s.registerB } ∧
    (s.halted = false → s.memory.read s.programCounter = 0x9#4 ++ low →
      s.stepCommand = ({ s with output := s.registerB, programCounter := s.programCounter + 1 }, true))

/-- OUT imm (R151): word `1011 iiii`; `OUT <- imm`. -/
def Obligations.OutImmLoadsOutput : Prop :=
  ∀ (imm : BitVec 4) (s : State),
    decodeWord (0xB#4 ++ imm) = .outImm imm ∧
    exec (.outImm imm) s = .next { s with output := imm } ∧
    (s.halted = false → s.memory.read s.programCounter = 0xB#4 ++ imm →
      s.stepCommand = ({ s with output := imm, programCounter := s.programCounter + 1 }, true))

/-- JNC imm (R160, R164): word `1110 iiii`; `PC <- imm` when `C` is 0, else `PC` follows the advance. -/
def Obligations.JncImmJumpsIffNoCarry : Prop :=
  ∀ (imm : BitVec 4) (s : State),
    decodeWord (0xE#4 ++ imm) = .jncImm imm ∧
    exec (.jncImm imm) s = .next { s with programCounter := if s.carryFlag = 0#1 then imm else s.programCounter } ∧
    (s.halted = false → s.memory.read s.programCounter = 0xE#4 ++ imm →
      s.stepCommand = ({ s with programCounter := if s.carryFlag = 0#1 then imm else s.programCounter + 1 }, true))

/-- JMP imm (R161): word `1111 iiii`; `PC <- imm`. -/
def Obligations.JmpImmJumps : Prop :=
  ∀ (imm : BitVec 4) (s : State),
    decodeWord (0xF#4 ++ imm) = .jmpImm imm ∧
    exec (.jmpImm imm) s = .next { s with programCounter := imm } ∧
    (s.halted = false → s.memory.read s.programCounter = 0xF#4 ++ imm →
      s.stepCommand = ({ s with programCounter := imm }, true))

/-- UND8, UNDA, UNDC, UNDD (R170 to R173): words `1000 xxxx`, `1010 xxxx`, `1100 xxxx`, `1101 xxxx` with any low nibble;
`HALTED <- true` and nothing else; the step returns false. That `PC` is left advanced is the spec's decision D6. -/
def Obligations.HaltingOpcodesSetHaltedOnly : Prop :=
  ∀ (low : BitVec 4) (s : State),
    (decodeWord (0x8#4 ++ low) = .und8 low ∧ decodeWord (0xA#4 ++ low) = .undA low ∧
      decodeWord (0xC#4 ++ low) = .undC low ∧ decodeWord (0xD#4 ++ low) = .undD low) ∧
    (exec (.und8 low) s = .next { s with halted := true } ∧ exec (.undA low) s = .next { s with halted := true } ∧
      exec (.undC low) s = .next { s with halted := true } ∧ exec (.undD low) s = .next { s with halted := true }) ∧
    (s.halted = false →
      s.memory.read s.programCounter ∈ [0x8#4 ++ low, 0xA#4 ++ low, 0xC#4 ++ low, 0xD#4 ++ low] →
      s.stepCommand = ({ s with halted := true, programCounter := s.programCounter + 1 }, false))

/-- IN A acts as MOV A, imm and IN B as MOV B, imm, for every state and immediate (R136, which the spec derives). -/
def Obligations.InActsAsMovImmediate : Prop :=
  ∀ (n : BitVec 4) (s : State),
    exec (.inA n) s = exec (.movAImm n) s ∧ exec (.inB n) s = exec (.movBImm n) s

/-! ### Encoding (30) -/

/-- A word of each opcode, written out bit by bit from R74's patterns, decodes to its instruction. -/
def Obligations.WrittenOutWordsDecode : Prop :=
  decodeWord 0b00000001 = .addA 1 ∧ decodeWord 0b00011111 = .movAB 15 ∧ decodeWord 0b00100110 = .inA 6 ∧
  decodeWord 0b00111111 = .movAImm 15 ∧ decodeWord 0b01001010 = .movBA 10 ∧ decodeWord 0b01010111 = .addB 7 ∧
  decodeWord 0b01101001 = .inB 9 ∧ decodeWord 0b01110101 = .movBImm 5 ∧ decodeWord 0b10001111 = .und8 15 ∧
  decodeWord 0b10010000 = .outB 0 ∧ decodeWord 0b10100000 = .undA 0 ∧ decodeWord 0b10110101 = .outImm 5 ∧
  decodeWord 0b11001111 = .undC 15 ∧ decodeWord 0b11010000 = .undD 0 ∧ decodeWord 0b11100010 = .jncImm 2 ∧
  decodeWord 0b11110001 = .jmpImm 1

/-- The decoder agrees with spec/opcode_table.json: a word that a row's mask and match select decodes to that row's
instruction, with the word's low nibble as its field, and exactly one row selects it. -/
def Obligations.DecoderFollowsOpcodeTable : Prop :=
  ∀ w : BitVec 8,
    (opcodeTable.filter fun r => w &&& r.mask = r.pattern).map OpcodeRow.mnemonic = [(decodeWord w).mnemonic] ∧
    (decodeWord w).lowNibble.toNat = w.toNat % 16 ∧ (decodeWord w).opcode.toNat = w.toNat / 16

/-- Decoding the bytes of a well-formed instruction gives the instruction and the bytes after it, for every instruction
and every value of its field. -/
def Obligations.DecodeEncodeRoundTrip : Prop :=
  ∀ (i : Instr) (rest : List (BitVec 8)), i.wellFormed = true → decode (encode i ++ rest) = .ok (i, rest)

/-- Each word has one meaning and each instruction one word: encoding what a word decodes to gives the word. For the
opcodes that ignore the low nibble this is the model's own choice (log entry 13, DESIGN CHOICE): an instruction keeps the
ignored bits and the encoder writes them back. -/
def Obligations.EncodeDecodeRoundTrip : Prop :=
  ∀ w : BitVec 8, encodeWord (decodeWord w) = w

/-- Don't-care bits (R75): opcodes 0x1, 0x4, 0x8, 0x9, 0xA, 0xC and 0xD behave alike for all 16 low nibbles, and the
decoder rejects none of them. -/
def Obligations.IgnoredNibbleHasNoEffect : Prop :=
  ∀ (opc low low' : BitVec 4), opc ∈ [0x1#4, 0x4#4, 0x8#4, 0x9#4, 0xA#4, 0xC#4, 0xD#4] →
    (∃ i, decode [opc ++ low] = .ok (i, [])) ∧
    ∀ s : State, exec (decodeWord (opc ++ low)) s = exec (decodeWord (opc ++ low')) s

/-! ### The step (40) -/

/-- A step of a machine that is not halted runs the instruction that the word at `PC` decodes to, on the state with `PC`
advanced modulo 16. That every opcode runs on the advanced `PC` is read from R103 and R112 (log entry 2, DEDUCED); that the
halting opcodes do too is the spec's decision D6 (log entry 4, DEDUCED). -/
def Obligations.StepRunsDecodedInstruction : Prop :=
  ∀ (s : State) (i : Instr), s.halted = false → decode [s.memory.read s.programCounter] = .ok (i, []) →
    i.wellFormed = true → step s = exec i { s with programCounter := s.programCounter + 1 }

/-- Halted short-circuit (R101): no state change, false returned, whatever memory holds. -/
def Obligations.HaltedStepChangesNothing : Prop :=
  ∀ (s : State) (m : Memory), s.halted = true →
    step s = .next s ∧ s.stepCommand = (s, false) ∧
    { s with memory := m }.stepCommand = ({ s with memory := m }, false)

/-- Return (R107): `step` returns false exactly when `HALTED` is true after the call, so, of a machine that was not
halted, exactly when this step caused a halt. -/
def Obligations.StepReturnsNotHalted : Prop :=
  ∀ s : State, s.stepCommand.2 = !s.stepCommand.1.halted ∧
    (s.stepCommand.2 = false ↔ s.halted = true ∨ (s.halted = false ∧ s.stepCommand.1.halted = true))

/-- Totality (R113): every instruction completes from every state, every step has a next state, and the function
`State → State × Bool` and the step relation are the machine's step. -/
def Obligations.StepIsTotal : Prop :=
  (∀ (i : Instr) (s : State), ∃ t, exec i s = .next t) ∧
  (∀ s : State, step s = .next s.stepCommand.1) ∧
  (∀ (s t : State) (b : Bool), StepsTo s b t ↔ step s = .next t ∧ b = !t.halted)

/-- The machine's step is the spec's pseudocode (R108), read on plain numbers: same values of all eight elements, same
result, for every state. That `PC` is advanced on a halting step is the spec's decision D6. -/
def Obligations.StepRefinesPseudocode : Prop :=
  ∀ s : State, (s.stepCommand.1.plain, s.stepCommand.2) = s.plain.step

/-- The next program counter: the word's immediate on JMP and on a taken JNC, else `PC + 1` modulo 16, so that 15 is
followed by 0. For the halting opcodes this is the spec's decision D6. -/
def Obligations.NextProgramCounter : Prop :=
  ∀ s t : State, s.halted = false → step s = .next t →
    let w := (s.memory.read s.programCounter).toNat
    t.programCounter.toNat =
      if w / 16 = 0xF ∨ (w / 16 = 0xE ∧ s.carryFlag = 0#1) then w % 16 else (s.programCounter.toNat + 1) % 16

/-! ### What an instruction leaves unchanged, and what it does not read (10) -/

/-- The frame of every instruction: each register, the flag, `HALTED` and the advanced `PC` change only under the opcodes
that have it as destination (R73); `RUNNING` and every byte of memory never change. That a halting opcode leaves `PC` at
the advanced value is the spec's decision D6 (log entry 4, DEDUCED). -/
def Obligations.InstructionFrame : Prop :=
  ∀ (i : Instr) (s t : State), exec i s = .next t →
    (i.opcode ∉ [0x0#4, 0x1#4, 0x2#4, 0x3#4] → t.registerA = s.registerA) ∧
    (i.opcode ∉ [0x4#4, 0x5#4, 0x6#4, 0x7#4] → t.registerB = s.registerB) ∧
    (i.opcode ∉ [0x9#4, 0xB#4] → t.output = s.output) ∧
    (i.opcode ∉ [0x0#4, 0x5#4] → t.carryFlag = s.carryFlag) ∧
    (i.opcode ∉ [0xE#4, 0xF#4] → t.programCounter = s.programCounter) ∧
    (i.opcode ∉ [0x8#4, 0xA#4, 0xC#4, 0xD#4] → t.halted = s.halted) ∧
    t.running = s.running ∧ ∀ a : BitVec 4, t.memory.read a = s.memory.read a

/-- Register `A` (R22): what its four writers write, and what its two readers read; no other instruction writes it, and
no other instruction's effect depends on it. -/
def Obligations.RegisterAReadersAndWriters : Prop :=
  ∀ (s t : State) (i : Instr) (n x : BitVec 4),
    exec (.movAB n) s = .next { s with registerA := s.registerB } ∧
    exec (.inA n) s = .next { s with registerA := n } ∧
    exec (.movAImm n) s = .next { s with registerA := n } ∧
    exec (.movBA n) s = .next { s with registerB := s.registerA } ∧
    (exec (.addA n) s = .next t → t.registerA.toNat = (s.registerA.toNat + n.toNat) % 16) ∧
    (exec i s = .next t → i.opcode ∉ [0x0#4, 0x1#4, 0x2#4, 0x3#4] → t.registerA = s.registerA) ∧
    (exec i s = .next t → i.opcode ∉ [0x0#4, 0x4#4] →
      exec i { s with registerA := x } =
        .next { t with registerA := if i.opcode ∈ [0x1#4, 0x2#4, 0x3#4] then t.registerA else x })

/-- Register `B` (R23): what its four writers write, and what its three readers read; no other instruction writes it,
and no other instruction's effect depends on it. -/
def Obligations.RegisterBReadersAndWriters : Prop :=
  ∀ (s t : State) (i : Instr) (n x : BitVec 4),
    exec (.movBA n) s = .next { s with registerB := s.registerA } ∧
    exec (.inB n) s = .next { s with registerB := n } ∧
    exec (.movBImm n) s = .next { s with registerB := n } ∧
    exec (.movAB n) s = .next { s with registerA := s.registerB } ∧
    exec (.outB n) s = .next { s with output := s.registerB } ∧
    (exec (.addB n) s = .next t → t.registerB.toNat = (s.registerB.toNat + n.toNat) % 16) ∧
    (exec i s = .next t → i.opcode ∉ [0x4#4, 0x5#4, 0x6#4, 0x7#4] → t.registerB = s.registerB) ∧
    (exec i s = .next t → i.opcode ∉ [0x1#4, 0x5#4, 0x9#4] →
      exec i { s with registerB := x } =
        .next { t with registerB := if i.opcode ∈ [0x4#4, 0x6#4, 0x7#4] then t.registerB else x })

/-- The carry flag (R26, R137): ADD A and ADD B write it from their own sums, no other instruction changes it, JNC is
the only one whose effect depends on it, and its reset value is 0. -/
def Obligations.CarryReadersAndWriters : Prop :=
  State.reset.carryFlag = 0 ∧
  ∀ (s t : State) (i : Instr) (n : BitVec 4) (x : BitVec 1),
    (exec (.addA n) s = .next t → t.carryFlag = if s.registerA.toNat + n.toNat > 15 then 1 else 0) ∧
    (exec (.addB n) s = .next t → t.carryFlag = if s.registerB.toNat + n.toNat > 15 then 1 else 0) ∧
    (exec i s = .next t → i.opcode ∉ [0x0#4, 0x5#4] → t.carryFlag = s.carryFlag) ∧
    (exec i s = .next t → i.opcode ≠ 0xE#4 →
      exec i { s with carryFlag := x } =
        .next { t with carryFlag := if i.opcode ∈ [0x0#4, 0x5#4] then t.carryFlag else x }) ∧
    exec (.jncImm n) { s with carryFlag := 0 } = .next { s with carryFlag := 0, programCounter := n } ∧
    exec (.jncImm n) { s with carryFlag := 1 } = .next { s with carryFlag := 1 }

/-- The carry write rule and the law of both additions (R123, R125): the result and the flag depend on the instruction's
own sum alone, whatever the flag held before; a sum up to 15 writes 0. No other instruction writes the flag. -/
def Obligations.AdditionLaw : Prop :=
  ∀ (s t : State) (n : BitVec 4) (i : Instr),
    (exec (.addA n) s = .next t →
      t.registerA.toNat = (s.registerA.toNat + n.toNat) % 16 ∧
      (t.carryFlag = 1 ↔ s.registerA.toNat + n.toNat > 15) ∧ (t.carryFlag = 0 ↔ s.registerA.toNat + n.toNat ≤ 15)) ∧
    (exec (.addB n) s = .next t →
      t.registerB.toNat = (s.registerB.toNat + n.toNat) % 16 ∧
      (t.carryFlag = 1 ↔ s.registerB.toNat + n.toNat > 15) ∧ (t.carryFlag = 0 ↔ s.registerB.toNat + n.toNat ≤ 15)) ∧
    (exec i s = .next t → (∀ m, i ≠ .addA m ∧ i ≠ .addB m) → t.carryFlag = s.carryFlag)

/-- The ALU (R120): the 4-bit result is the sum modulo 16 and the carry-out is 1 exactly when the sum exceeds 15. -/
def Obligations.AdderResultAndCarryOut : Prop :=
  ∀ x y : BitVec 4, (aluResult x y).toNat = (x.toNat + y.toNat) % 16 ∧
    aluCarry x y = if x.toNat + y.toNat > 15 then 1 else 0

/-- The output register (R28, R152): OUT B and OUT imm write it, nothing else does, and no instruction's effect depends
on it. That the port shows it at all times is the spec's decision D22. -/
def Obligations.OutputWrittenByOutOnly : Prop :=
  ∀ (s t : State) (i : Instr) (n x : BitVec 4),
    exec (.outB n) s = .next { s with output := s.registerB } ∧
    exec (.outImm n) s = .next { s with output := n } ∧
    (exec i s = .next t → i.opcode ∉ [0x9#4, 0xB#4] → t.output = s.output) ∧
    (exec i s = .next t → exec i { s with output := x } =
      .next { t with output := if i.opcode ∈ [0x9#4, 0xB#4] then t.output else x }) ∧
    s.outPort = s.output ∧ s.snapshot.output = s.output

/-- `HALTED` (R30): set only, and always, by executing a halting opcode; cleared only by `reset` and `load`; read at the
start of `step`, by no instruction; seen by the host in the snapshot and in `step`'s result; false at reset. -/
def Obligations.HaltedSetAndCleared : Prop :=
  State.reset.halted = false ∧
  ∀ (s t : State) (op : HostOp) (p : List (BitVec 8)) (i : Instr) (b : Bool),
    (s.halted = false → ((s.hostOp op).1.halted = true ↔
      op = .step ∧ (decodeWord (s.memory.read s.programCounter)).opcode ∈ [0x8#4, 0xA#4, 0xC#4, 0xD#4])) ∧
    (s.halted = true → ((s.hostOp op).1.halted = false ↔ op = .reset ∨ ∃ q, op = .load q)) ∧
    (s.hostOp .reset).1.halted = false ∧ (s.hostOp (.load p)).1.halted = false ∧
    (s.halted = true → s.stepCommand = (s, false)) ∧
    (exec i s = .next t → exec i { s with halted := b } =
      .next { t with halted := if i.opcode ∈ [0x8#4, 0xA#4, 0xC#4, 0xD#4] then true else b }) ∧
    s.snapshot.halted = s.halted ∧ s.stepCommand.2 = !s.stepCommand.1.halted

/-- `RUNNING` (R31, R111): a step neither reads nor writes it. That the host may write it at will, with no other effect,
is the spec's decision D9. -/
def Obligations.RunningHasNoEffect : Prop :=
  ∀ (s : State) (b : Bool),
    { s with running := b }.stepCommand = ({ s.stepCommand.1 with running := b }, s.stepCommand.2) ∧
    s.stepCommand.1.running = s.running ∧
    (s.hostOp (.setRunning b)).1 = { s with running := b } ∧ (s.hostOp .reset).1.running = false

/-! ### Memory, reset and load (20, 70) -/

/-- Memory is never mutated by `step` (R53, R110); only `reset`, which zeroes every entry, and `load`, which replaces
the whole of it, change it. -/
def Obligations.MemoryWrittenByResetAndLoadOnly : Prop :=
  ∀ (s t : State) (op : HostOp) (p : List (BitVec 8)) (a : BitVec 4),
    (step s = .next t → t.memory = s.memory) ∧
    (op.keepsProgram = true → (s.hostOp op).1.memory = s.memory) ∧
    (s.hostOp .reset).1.memory.read a = 0 ∧
    (s.hostOp (.load p)).1.memory.read a = p.getD a.toNat 0

/-- Reset values (R33): every element of the state after `reset`, and after the reset that `load` performs; after
`load` of `n` entries the memory entries from `n` on are 0. -/
def Obligations.ResetValues : Prop :=
  core.reset = State.reset ∧
  ∀ (s r : State) (p : List (BitVec 8)), r = (s.hostOp .reset).1 ∨ r = (s.hostOp (.load p)).1 →
    r.registerA = 0 ∧ r.registerB = 0 ∧ r.programCounter = 0 ∧ r.output = 0 ∧ r.carryFlag = 0 ∧
    r.running = false ∧ r.halted = false ∧
    (∀ a : BitVec 4, (s.hostOp .reset).1.memory.read a = 0) ∧
    (∀ a : BitVec 4, p.length ≤ a.toNat → (s.hostOp (.load p)).1.memory.read a = 0)

/-- `reset` and `load` act the same in every state, halted or not, and `reset` twice is `reset` once (R200; the first
part is the spec's decision D15). -/
def Obligations.ResetAndLoadIgnoreTheState : Prop :=
  ∀ (s t : State) (p : List (BitVec 8)),
    s.hostOp .reset = t.hostOp .reset ∧ s.hostOp (.load p) = t.hostOp (.load p) ∧
    ((s.hostOp .reset).1.hostOp .reset).1 = (s.hostOp .reset).1 ∧ (s.hostOp (.load [])).1 = (s.hostOp .reset).1

/-- `load` (R54): a reset, then the first 16 entries copied from address 0 up; what lies past them is discarded, and the
entries the program does not reach are 0; every other element has its reset value. -/
def Obligations.LoadCopiesFirstSixteen : Prop :=
  ∀ (s : State) (p : List (BitVec 8)),
    s.loadOp p = { State.reset with memory := (s.loadOp p).memory } ∧
    (∀ a : BitVec 4, (s.loadOp p).memory.read a = if h : a.toNat < p.length then p[a.toNat] else 0) ∧
    s.loadOp p = s.loadOp (p.take 16)

/-- `load` of wider integers stores each modulo 256 (R55: the spec's decision D4). -/
def Obligations.LoadMasksWideEntries : Prop :=
  ∀ (s : State) (p : List Nat) (a : BitVec 4),
    ((s.loadWide p).memory.read a).toNat = p.getD a.toNat 0 % 256

/-- Reset vector: after `reset` or `load` the machine is not halted and the first instruction fetched is the one at
address 0 (R201), and the first step runs it on `PC` 1. That it runs on the advanced `PC` is log entry 2 (DEDUCED), and for
a halting word the spec's decision D6 (log entry 4, DEDUCED). -/
def Obligations.FirstFetchIsAtAddressZero : Prop :=
  ∀ (s r : State) (p : List (BitVec 8)), r = (s.hostOp .reset).1 ∨ r = (s.hostOp (.load p)).1 →
    r.halted = false ∧ r.programCounter = 0 ∧
    step r = exec (decodeWord (r.memory.read 0)) { r with programCounter := 1 }

/-- `getState` (R34): the snapshot has every element's value, with all 16 memory entries in address order. That the call
changes no state is the spec's decision D24. -/
def Obligations.GetStateObservesAndChangesNothing : Prop :=
  ∀ s : State, s.hostOp .getState = (s, .state s.snapshot) ∧
    s.snapshot.registerA = s.registerA ∧ s.snapshot.registerB = s.registerB ∧
    s.snapshot.programCounter = s.programCounter ∧ s.snapshot.output = s.output ∧
    s.snapshot.carryFlag = s.carryFlag ∧ s.snapshot.running = s.running ∧ s.snapshot.halted = s.halted ∧
    s.snapshot.memory.length = 16 ∧ ∀ a : BitVec 4, s.snapshot.memory[a.toNat]? = some (s.memory.read a)

/-- No state is hidden (from R35): two states with canonical memories and the same snapshot are the same state. That
memories are canonical lists, and so that equal contents are equal data, is the model's own form of memory (log entry 1,
DESIGN CHOICE). -/
def Obligations.SnapshotShowsWholeState : Prop :=
  ∀ s t : State, s.memory.wf = true → t.memory.wf = true → s.snapshot = t.snapshot → s = t

/-- The canonical form is canonical: two such memories that read alike at all 16 addresses are equal data. -/
def Obligations.EqualReadsMeanEqualMemories : Prop :=
  ∀ m m' : Memory, m.wf = true → m'.wf = true → (∀ a : BitVec 4, m.read a = m'.read a) → m = m'

/-- Each step fetches from the memory exactly as the most recent `reset` or `load` left it (R62): any host operations
after it that are neither leave memory as it was. -/
def Obligations.MemoryIsTheLastLoads : Prop :=
  ∀ (s : State) (p : List (BitVec 8)) (ops : List HostOp), (∀ op ∈ ops, op.keepsProgram = true) →
    (State.runHost ops (s.loadOp p)).memory = (s.loadOp p).memory ∧
    (State.runHost ops s.resetOp).memory = State.reset.memory

/-! ### Halt, runs and invariants (45, 60, 70) -/

/-- Halted is terminal (R174): in a halted state every further step changes nothing and returns false, and no sequence of
host operations without `reset` or `load` changes more than `RUNNING`; running a halting opcode is the only way in. That
the host's write of `RUNNING` changes nothing else is the spec's decision D9 (log entry 7, DEDUCED), and that `getState`
changes no state is its decision D24 (log entry 18, DEDUCED). -/
def Obligations.HaltedIsTerminal : Prop :=
  (∀ (s : State) (n : Nat), s.halted = true → State.stepN n s = s ∧ (State.stepN n s).stepCommand.2 = false) ∧
  (∀ (s : State) (ops : List HostOp), s.halted = true → (∀ op ∈ ops, op.keepsProgram = true) →
    State.runHost ops s = { s with running := (State.runHost ops s).running }) ∧
  (∀ (s : State) (op : HostOp), s.halted = false → (s.hostOp op).1.halted = true →
    op = .step ∧ ∃ low, decodeWord (s.memory.read s.programCounter) ∈
      [Instr.und8 low, Instr.undA low, Instr.undC low, Instr.undD low])

/-- The invariant holds at reset: the memory list is canonical and the machine is not halted. The canonical list is the
model's own form of memory (log entry 1, DESIGN CHOICE). -/
def Obligations.ResetMeetsInvariant : Prop := State.reset.Inv

/-- Every step keeps the invariant: memory stays canonical, and a halted state has the halting word at `PC - 1`. The
canonical list is the model's own form of memory (log entry 1, DESIGN CHOICE); that the halting word stands at `PC - 1`
rests on the spec's decision D6 (log entry 4, DEDUCED). -/
def Obligations.StepKeepsInvariant : Prop :=
  ∀ s t : State, s.Inv → step s = .next t → t.Inv

/-- Every operation of the host keeps the invariant, `load` of any program among them. Its canonical list is the model's
own form of memory (log entry 1, DESIGN CHOICE); its halting word at `PC - 1` rests on the spec's decision D6 (log entry 4,
DEDUCED). -/
def Obligations.HostOperationsKeepInvariant : Prop :=
  ∀ (s : State) (op : HostOp), s.Inv → (s.hostOp op).1.Inv

/-- The halting word is recoverable (R181, which the spec derives from D6's `PC`): a step that halts leaves
`(PC - 1) mod 16` at its own address, and in every reachable halted state a halting opcode stands there. -/
def Obligations.HaltingWordIsRecoverable : Prop :=
  (∀ s t : State, s.halted = false → step s = .next t → t.halted = true → t.haltAddress = s.programCounter) ∧
  (∀ s : State, s.Reachable → s.halted = true →
    (s.memory.read s.haltAddress).toNat / 16 ∈ [0x8, 0xA, 0xC, 0xD])

/-- Every run is safe: from a state that meets the invariant, each of `n` steps has a next state and keeps it. The
invariant's canonical list is the model's own form of memory (log entry 1, DESIGN CHOICE); its halting word at `PC - 1`
rests on the spec's decision D6 (log entry 4, DEDUCED). -/
def Obligations.EveryRunIsSafe : Prop := ∀ (s : State) (n : Nat), s.Inv → s.SafeRun n

/-- Self-loop (R163, which the spec derives): a JMP to its own address leaves every element as it was, for any number of
steps, each of which returns true. -/
def Obligations.JumpToItselfLoopsForever : Prop :=
  ∀ (s : State) (n : Nat), s.halted = false → s.memory.read s.programCounter = 0xF#4 ++ s.programCounter →
    State.stepN n s = s ∧ (State.stepN n s).stepCommand.2 = true

/-- Unloaded memory runs (R205, which the spec derives): over all-zero memory `n` steps move `PC` by `n` modulo 16, clear
`C` and change nothing else; the machine never halts. -/
def Obligations.ZeroMemoryRunsForever : Prop :=
  ∀ (s : State) (n : Nat), s.halted = false → (∀ a : BitVec 4, s.memory.read a = 0) →
    State.stepN n s =
      { s with
        programCounter := BitVec.ofNat 4 (s.programCounter.toNat + n)
        carryFlag := if n = 0 then s.carryFlag else 0 }

/-- Sticky carry (R209, which the spec derives): however many steps run, the carry is as it was if none of them fetched
an ADD; and ADD A, 0 makes a JNC right after it jump, with `A` unchanged. -/
def Obligations.CarrySticksBetweenAdditions : Prop :=
  (∀ (s : State) (n : Nat),
    (∀ k < n, (State.stepN k s).halted = false →
      (decodeWord ((State.stepN k s).memory.read (State.stepN k s).programCounter)).opcode ∉ [0x0#4, 0x5#4]) →
      (State.stepN n s).carryFlag = s.carryFlag) ∧
  (∀ (s : State) (imm : BitVec 4), s.halted = false → s.memory.read s.programCounter = 0x00#8 →
    s.memory.read (s.programCounter + 1) = 0xE#4 ++ imm →
      State.stepN 2 s = { s with carryFlag := 0, programCounter := imm })

/-- The end of a run (R211; the spec's decision D11, log entry 20): a driven run that ends has ended at the first step of
its own run that returned false, in the state that step left, which is halted and final, and more fuel changes nothing; a
run out of fuel has made that many steps, each of which returned true. -/
def Obligations.DrivenRunEndsAtFirstHalt : Prop :=
  ∀ (fuel : Nat) (s t : State),
    (State.drive fuel s = .ended t →
      (∃ k < fuel, t = State.stepN (k + 1) s ∧ (State.stepN k s).stepCommand.2 = false ∧
        ∀ j < k, (State.stepN j s).stepCommand.2 = true) ∧
      t.halted = true ∧ t.stepCommand = (t, false) ∧
      ∀ more, State.drive (fuel + more) s = .ended t) ∧
    (State.drive fuel s = .outOfFuel t → t = State.stepN fuel s ∧
      ∀ k < fuel, (State.stepN k s).stepCommand.2 = true)

/-! ### Program text (30, section 4) -/

/-- Round trip (R86, R91): for any lines of 8 binary characters, `parseProgram` gives their values read most significant
bit first, and `load` of those puts them at addresses 0 up, the first 16 of them, with the rest of memory 0. -/
def Obligations.ParseThenLoadReproducesTheBytes : Prop :=
  ∀ (ws : Char → Bool) (lines : List (List Char)), ws '0' = false → ws '1' = false →
    (∀ l ∈ lines, l.length = 8 ∧ ∀ c ∈ l, c = '0' ∨ c = '1') →
    let value := fun l : List Char =>
      ((List.range 8).map fun k => (if l.getD k '0' = '1' then 1 else 0) * 2 ^ (7 - k)).sum
    parseProgram ws (lines.flatMap fun l => l ++ ['\n']) = .words (lines.map fun l => BitVec.ofNat 8 (value l)) ∧
    ∀ (s : State) (a : BitVec 4),
      ((s.loadOp (lines.map fun l => BitVec.ofNat 8 (value l))).memory.read a).toNat =
        if h : a.toNat < lines.length then value lines[a.toNat] else 0

/-- Rejections (R92): a line whose text before any comment, with all whitespace removed, is not empty and is not exactly
8 binary characters is refused. -/
def Obligations.ParseRejectsBadLines : Prop :=
  ∀ (ws : Char → Bool) (code tail : List Char), ws '/' = false → '\n' ∉ code ++ tail → '/' ∉ code →
    (tail = [] ∨ ∃ r, tail = '/' :: '/' :: r) → (code.filter fun c => !ws c) ≠ [] →
    ((code.filter fun c => !ws c).length ≠ 8 ∨ ∃ c ∈ code.filter fun c => !ws c, c ≠ '0' ∧ c ≠ '1') →
    ∃ line, parseProgram ws (code ++ tail) = .parseError line

/-- The first bad line is the one reported, with the line trimmed as payload, whatever follows it (R85, R88: the spec's
decisions D13 and D25). -/
def Obligations.FirstBadLineIsReported : Prop :=
  ∀ (ws : Char → Bool) (before after : List (List Char)) (bad : List Char) (p : List (BitVec 8)),
    parseLines ws before = .words p → isSkipped ws bad = false → isBinaryWord (instructionText ws bad) = false →
    parseLines ws (before ++ bad :: after) = .parseError (trim ws bad)

/-- Skipped lines (R82): a line that is empty or begins with `//` after its leading whitespace gives no word and no
error. -/
def Obligations.SkippedLinesGiveNoWord : Prop :=
  ∀ (ws : Char → Bool) (lead text rest : List Char), ws '/' = false → '\n' ∉ lead ++ text →
    (∀ c ∈ lead, ws c = true) → (text = [] ∨ ∃ r, text = '/' :: '/' :: r) →
    parseProgram ws (lead ++ text ++ '\n' :: rest) = parseProgram ws rest

/-! ### The model's own form of memory (log entry 1) -/

/-- Every memory operation keeps the canonical form of the list, which is the model's own choice (log entry 1, DESIGN
CHOICE): one write does, and the memory that `reset` or `load` of any program leaves has it, whatever the state before. -/
def Obligations.MemoryOperationsKeepCanonicalForm : Prop :=
  (∀ (m : Memory) (a : BitVec 4) (v : BitVec 8), m.wf = true → (m.write a v).wf = true) ∧
  ∀ (s : State) (p : List (BitVec 8)), (s.loadOp p).memory.wf = true ∧ s.resetOp.memory.wf = true
end

