-- ==== Sys2Proof/Laws/Alu.lean ====
section
/-! SUPPORT. What the adder gives, in numbers. -/

namespace Sys2Proof.Machine

theorem aluSum_toNat (x y : Nibble) : (aluSum x y).toNat = x.toNat + y.toNat := by
  have hx := x.isLt
  have hy := y.isLt
  simp only [aluSum, BitVec.toNat_add, BitVec.toNat_setWidth]
  omega

/-- The result is the sum modulo 16. -/
theorem aluResult_toNat (x y : Nibble) : (aluResult x y).toNat = (x.toNat + y.toNat) % 16 := by
  simp [aluResult, aluSum_toNat]

/-- The carry-out says whether the sum exceeds 15. -/
theorem aluCarry_eq (x y : Nibble) : aluCarry x y = if x.toNat + y.toNat > 15 then 1 else 0 := by
  revert x y
  decide

end Sys2Proof.Machine
end

