-- ==== Sys2Proof/Laws/Decode.lean ====
section
/-! SUPPORT. The fields of a word, and what the decoder takes from them. -/

namespace Sys2Proof

theorem opcOf_append (opc low : Nibble) : opcOf (opc ++ low) = opc := by
  revert opc low; decide

theorem immOf_append (opc low : Nibble) : immOf (opc ++ low) = low := by
  revert opc low; decide

theorem append_fields (w : Byte) : opcOf w ++ immOf w = w := by
  revert w; decide

theorem opcode_decodeWord (w : Byte) : (decodeWord w).opcode = opcOf w := by
  revert w; decide

theorem lowNibble_decodeWord (w : Byte) : (decodeWord w).lowNibble = immOf w := by
  revert w; decide

theorem Instr.wellFormed_eq_true (i : Instr) : i.wellFormed = true := by
  cases i <;> rfl

@[simp] theorem decode_cons (w : Byte) (rest : List Byte) : decode (w :: rest) = .ok (decodeWord w, rest) := rfl

@[simp] theorem decode_nil : decode [] = .error .noByte := rfl

end Sys2Proof
end

