-- ==== Sys2Proof/Laws/Memory.lean ====
section
/-! SUPPORT. The laws of the instruction memory: what a read after a write gives, and that every memory operation keeps
the canonical form. -/

namespace Sys2Proof.Machine

@[simp] theorem Memory.lookup_nil (a : Nat) : Memory.lookup [] a = 0#8 := rfl

theorem Memory.wfFrom_cons {lo k : Nat} {v : Byte} {rest : Memory} :
    Memory.wfFrom lo ((k, v) :: rest) = true ↔
      lo ≤ k ∧ k < 16 ∧ v ≠ 0#8 ∧ Memory.wfFrom (k + 1) rest = true := by
  simp [Memory.wfFrom, and_assoc]

theorem Memory.wfFrom_mono {lo lo' : Nat} {m : Memory} (hle : lo' ≤ lo) (h : m.wfFrom lo = true) :
    m.wfFrom lo' = true := by
  cases m with
  | nil => rfl
  | cons c rest =>
    obtain ⟨hk, hrest⟩ := Memory.wfFrom_cons.mp h
    exact Memory.wfFrom_cons.mpr ⟨hle.trans hk, hrest⟩

/-- Below the lowest listed address every entry is unlisted. -/
theorem Memory.lookup_below {lo a : Nat} {m : Memory} (h : m.wfFrom lo = true) (ha : a < lo) : m.lookup a = 0#8 := by
  induction m generalizing lo with
  | nil => rfl
  | cons c rest ih =>
    obtain ⟨hk, -, -, hrest⟩ := Memory.wfFrom_cons.mp h
    have hne : c.1 ≠ a := by omega
    simpa [Memory.lookup, hne] using ih hrest (by omega)

/-- Every entry from address 16 on is unlisted. -/
theorem Memory.lookup_above {lo a : Nat} {m : Memory} (h : m.wfFrom lo = true) (ha : 16 ≤ a) : m.lookup a = 0#8 := by
  induction m generalizing lo with
  | nil => rfl
  | cons c rest ih =>
    obtain ⟨-, hk, -, hrest⟩ := Memory.wfFrom_cons.mp h
    have hne : c.1 ≠ a := by omega
    simpa [Memory.lookup, hne] using ih hrest

/-- A read after a write: the value written at the address written, the old value everywhere else. -/
theorem Memory.lookup_insert {lo a : Nat} {m : Memory} (h : m.wfFrom lo = true) (v : Byte) (b : Nat) :
    (m.insert a v).lookup b = if b = a then v else m.lookup b := by
  induction m generalizing lo with
  | nil => grind [Memory.insert, Memory.lookup]
  | cons c rest ih =>
    obtain ⟨k, u⟩ := c
    obtain ⟨-, -, -, hrest⟩ := Memory.wfFrom_cons.mp h
    have hrec := ih hrest
    have hbelow := fun b hb => Memory.lookup_below (a := b) hrest hb
    grind [Memory.insert, Memory.lookup]

/-- A write keeps the canonical form. -/
theorem Memory.wfFrom_insert {lo a : Nat} {m : Memory} (h : m.wfFrom lo = true) (hlo : lo ≤ a) (ha : a < 16) (v : Byte) :
    (m.insert a v).wfFrom lo = true := by
  induction m generalizing lo with
  | nil => by_cases hv : v = 0#8 <;> simp [Memory.insert, Memory.wfFrom, hv, hlo, ha]
  | cons c rest ih =>
    obtain ⟨k, u⟩ := c
    obtain ⟨hk, hk16, hu, hrest⟩ := Memory.wfFrom_cons.mp h
    unfold Memory.insert
    split_ifs with h1 h2 h3 h4
    · exact h
    · exact Memory.wfFrom_cons.mpr ⟨hlo, ha, h2, Memory.wfFrom_cons.mpr ⟨by omega, hk16, hu, hrest⟩⟩
    · exact Memory.wfFrom_mono (by omega) hrest
    · exact Memory.wfFrom_cons.mpr ⟨hlo, ha, h4, h3 ▸ hrest⟩
    · exact Memory.wfFrom_cons.mpr ⟨hk, hk16, hu, ih hrest (by omega)⟩

theorem Memory.read_write {m : Memory} (h : m.wf = true) (a b : Addr) (v : Byte) :
    (m.write a v).read b = if b = a then v else m.read b := by
  simp [Memory.read, Memory.write, Memory.lookup_insert h, BitVec.toNat_inj]

theorem Memory.wf_write {m : Memory} (h : m.wf = true) (a : Addr) (v : Byte) : (m.write a v).wf = true :=
  Memory.wfFrom_insert h (Nat.zero_le _) a.isLt v

theorem Memory.wf_nil : Memory.wf [] = true := rfl

/-- The copying loop of `load` keeps the canonical form. -/
theorem Memory.wf_copyFrom {m : Memory} (h : m.wf = true) (i : Nat) (p : List Byte) : (m.copyFrom i p).wf = true := by
  induction p generalizing m i with
  | nil => exact h
  | cons v rest ih =>
    unfold Memory.copyFrom
    split_ifs
    · exact ih (Memory.wf_write h _ _) _
    · exact h

/-- What the copying loop of `load` leaves at an address: the list's value where the list reaches, else the old one. -/
theorem Memory.read_copyFrom {m : Memory} (h : m.wf = true) (i : Nat) (p : List Byte) (a : Addr) :
    (m.copyFrom i p).read a = if i ≤ a.toNat then p.getD (a.toNat - i) (m.read a) else m.read a := by
  induction p generalizing m i with
  | nil => simp [Memory.copyFrom]
  | cons v rest ih =>
    unfold Memory.copyFrom
    have ha := a.isLt
    have h16w : Config.memWords = 16 := rfl
    split_ifs with h16 hle hle
    · rw [ih (Memory.wf_write h _ _), Memory.read_write h]
      obtain heq | hlt := Nat.eq_or_lt_of_le hle
      · subst heq; simp
      · have hne : a ≠ BitVec.ofNat 4 i := by
          rintro rfl; simp [Nat.mod_eq_of_lt h16] at hlt
        obtain ⟨d, hd⟩ : ∃ d, a.toNat - i = d + 1 := ⟨a.toNat - i - 1, by omega⟩
        have hd' : a.toNat - (i + 1) = d := by omega
        simp [hne, hd, hd', Nat.succ_le_of_lt hlt]
    · have hne : a ≠ BitVec.ofNat 4 i := by
        rintro rfl; simp [Nat.mod_eq_of_lt h16] at hle
      rw [ih (Memory.wf_write h _ _), Memory.read_write h, if_neg (by omega), if_neg hne]
    · omega
    · rfl

/-- Place `i` of the written-out memory is entry `i`. -/
theorem Memory.entries_getD (m : Memory) (a : Addr) (d : Byte) : m.entries.getD a.toNat d = m.read a := by
  have ha : a.toNat < 16 := a.isLt
  simp [Memory.entries, Memory.read, List.getD, ha]

end Sys2Proof.Machine
end

