-- ==== Sys2Proof/Laws/State.lean ====
section
/-! SUPPORT. One lemma per state element per update, true by rfl, so that no later proof unfolds a record update. -/

namespace Sys2Proof.Machine

variable (s : State)

@[simp] theorem State.setA_registerA (v : Nibble) : (s.setA v).registerA = v := rfl
@[simp] theorem State.setA_registerB (v : Nibble) : (s.setA v).registerB = s.registerB := rfl
@[simp] theorem State.setA_programCounter (v : Nibble) : (s.setA v).programCounter = s.programCounter := rfl
@[simp] theorem State.setA_output (v : Nibble) : (s.setA v).output = s.output := rfl
@[simp] theorem State.setA_carryFlag (v : Nibble) : (s.setA v).carryFlag = s.carryFlag := rfl
@[simp] theorem State.setA_memory (v : Nibble) : (s.setA v).memory = s.memory := rfl
@[simp] theorem State.setA_running (v : Nibble) : (s.setA v).running = s.running := rfl
@[simp] theorem State.setA_halted (v : Nibble) : (s.setA v).halted = s.halted := rfl

@[simp] theorem State.setB_registerA (v : Nibble) : (s.setB v).registerA = s.registerA := rfl
@[simp] theorem State.setB_registerB (v : Nibble) : (s.setB v).registerB = v := rfl
@[simp] theorem State.setB_programCounter (v : Nibble) : (s.setB v).programCounter = s.programCounter := rfl
@[simp] theorem State.setB_output (v : Nibble) : (s.setB v).output = s.output := rfl
@[simp] theorem State.setB_carryFlag (v : Nibble) : (s.setB v).carryFlag = s.carryFlag := rfl
@[simp] theorem State.setB_memory (v : Nibble) : (s.setB v).memory = s.memory := rfl
@[simp] theorem State.setB_running (v : Nibble) : (s.setB v).running = s.running := rfl
@[simp] theorem State.setB_halted (v : Nibble) : (s.setB v).halted = s.halted := rfl

@[simp] theorem State.setPc_registerA (v : Addr) : (s.setPc v).registerA = s.registerA := rfl
@[simp] theorem State.setPc_registerB (v : Addr) : (s.setPc v).registerB = s.registerB := rfl
@[simp] theorem State.setPc_programCounter (v : Addr) : (s.setPc v).programCounter = v := rfl
@[simp] theorem State.setPc_output (v : Addr) : (s.setPc v).output = s.output := rfl
@[simp] theorem State.setPc_carryFlag (v : Addr) : (s.setPc v).carryFlag = s.carryFlag := rfl
@[simp] theorem State.setPc_memory (v : Addr) : (s.setPc v).memory = s.memory := rfl
@[simp] theorem State.setPc_running (v : Addr) : (s.setPc v).running = s.running := rfl
@[simp] theorem State.setPc_halted (v : Addr) : (s.setPc v).halted = s.halted := rfl

@[simp] theorem State.setOut_registerA (v : Nibble) : (s.setOut v).registerA = s.registerA := rfl
@[simp] theorem State.setOut_registerB (v : Nibble) : (s.setOut v).registerB = s.registerB := rfl
@[simp] theorem State.setOut_programCounter (v : Nibble) : (s.setOut v).programCounter = s.programCounter := rfl
@[simp] theorem State.setOut_output (v : Nibble) : (s.setOut v).output = v := rfl
@[simp] theorem State.setOut_carryFlag (v : Nibble) : (s.setOut v).carryFlag = s.carryFlag := rfl
@[simp] theorem State.setOut_memory (v : Nibble) : (s.setOut v).memory = s.memory := rfl
@[simp] theorem State.setOut_running (v : Nibble) : (s.setOut v).running = s.running := rfl
@[simp] theorem State.setOut_halted (v : Nibble) : (s.setOut v).halted = s.halted := rfl

@[simp] theorem State.setCarry_registerA (v : Bit) : (s.setCarry v).registerA = s.registerA := rfl
@[simp] theorem State.setCarry_registerB (v : Bit) : (s.setCarry v).registerB = s.registerB := rfl
@[simp] theorem State.setCarry_programCounter (v : Bit) : (s.setCarry v).programCounter = s.programCounter := rfl
@[simp] theorem State.setCarry_output (v : Bit) : (s.setCarry v).output = s.output := rfl
@[simp] theorem State.setCarry_carryFlag (v : Bit) : (s.setCarry v).carryFlag = v := rfl
@[simp] theorem State.setCarry_memory (v : Bit) : (s.setCarry v).memory = s.memory := rfl
@[simp] theorem State.setCarry_running (v : Bit) : (s.setCarry v).running = s.running := rfl
@[simp] theorem State.setCarry_halted (v : Bit) : (s.setCarry v).halted = s.halted := rfl

@[simp] theorem State.setMem_registerA (v : Memory) : (s.setMem v).registerA = s.registerA := rfl
@[simp] theorem State.setMem_registerB (v : Memory) : (s.setMem v).registerB = s.registerB := rfl
@[simp] theorem State.setMem_programCounter (v : Memory) : (s.setMem v).programCounter = s.programCounter := rfl
@[simp] theorem State.setMem_output (v : Memory) : (s.setMem v).output = s.output := rfl
@[simp] theorem State.setMem_carryFlag (v : Memory) : (s.setMem v).carryFlag = s.carryFlag := rfl
@[simp] theorem State.setMem_memory (v : Memory) : (s.setMem v).memory = v := rfl
@[simp] theorem State.setMem_running (v : Memory) : (s.setMem v).running = s.running := rfl
@[simp] theorem State.setMem_halted (v : Memory) : (s.setMem v).halted = s.halted := rfl

@[simp] theorem State.setRunning_registerA (v : Bool) : (s.setRunning v).registerA = s.registerA := rfl
@[simp] theorem State.setRunning_registerB (v : Bool) : (s.setRunning v).registerB = s.registerB := rfl
@[simp] theorem State.setRunning_programCounter (v : Bool) : (s.setRunning v).programCounter = s.programCounter := rfl
@[simp] theorem State.setRunning_output (v : Bool) : (s.setRunning v).output = s.output := rfl
@[simp] theorem State.setRunning_carryFlag (v : Bool) : (s.setRunning v).carryFlag = s.carryFlag := rfl
@[simp] theorem State.setRunning_memory (v : Bool) : (s.setRunning v).memory = s.memory := rfl
@[simp] theorem State.setRunning_running (v : Bool) : (s.setRunning v).running = v := rfl
@[simp] theorem State.setRunning_halted (v : Bool) : (s.setRunning v).halted = s.halted := rfl

@[simp] theorem State.setHalted_registerA (v : Bool) : (s.setHalted v).registerA = s.registerA := rfl
@[simp] theorem State.setHalted_registerB (v : Bool) : (s.setHalted v).registerB = s.registerB := rfl
@[simp] theorem State.setHalted_programCounter (v : Bool) : (s.setHalted v).programCounter = s.programCounter := rfl
@[simp] theorem State.setHalted_output (v : Bool) : (s.setHalted v).output = s.output := rfl
@[simp] theorem State.setHalted_carryFlag (v : Bool) : (s.setHalted v).carryFlag = s.carryFlag := rfl
@[simp] theorem State.setHalted_memory (v : Bool) : (s.setHalted v).memory = s.memory := rfl
@[simp] theorem State.setHalted_running (v : Bool) : (s.setHalted v).running = s.running := rfl
@[simp] theorem State.setHalted_halted (v : Bool) : (s.setHalted v).halted = v := rfl

@[simp] theorem State.advancePc_eq : s.advancePc = s.setPc (s.programCounter + 1) := rfl
@[simp] theorem State.halt_eq : s.halt = s.setHalted true := rfl
@[simp] theorem State.resetOp_eq : s.resetOp = State.reset := rfl
@[simp] theorem State.outPort_eq : s.outPort = s.output := rfl
@[simp] theorem State.haltAddress_eq : s.haltAddress = s.programCounter - 1 := rfl

@[simp] theorem State.readSrc_regA : s.readSrc .regA = s.registerA := rfl
@[simp] theorem State.readSrc_regB : s.readSrc .regB = s.registerB := rfl
@[simp] theorem State.readSrc_imm (n : Nibble) : s.readSrc (.imm n) = n := rfl
@[simp] theorem State.writeDst_regA (v : Nibble) : s.writeDst v .regA = s.setA v := rfl
@[simp] theorem State.writeDst_regB (v : Nibble) : s.writeDst v .regB = s.setB v := rfl
@[simp] theorem State.writeDst_out (v : Nibble) : s.writeDst v .out = s.setOut v := rfl
@[simp] theorem State.writeDst_pc (v : Nibble) : s.writeDst v .pc = s.setPc v := rfl

@[simp] theorem State.reset_registerA : State.reset.registerA = 0 := rfl
@[simp] theorem State.reset_registerB : State.reset.registerB = 0 := rfl
@[simp] theorem State.reset_programCounter : State.reset.programCounter = 0 := rfl
@[simp] theorem State.reset_output : State.reset.output = 0 := rfl
@[simp] theorem State.reset_carryFlag : State.reset.carryFlag = 0 := rfl
@[simp] theorem State.reset_memory : State.reset.memory = [] := rfl
@[simp] theorem State.reset_running : State.reset.running = false := rfl
@[simp] theorem State.reset_halted : State.reset.halted = false := rfl

end Sys2Proof.Machine
end

