-- ==== Sys2Proof/Laws/Step.lean ====
section
/-! SUPPORT. What the shared operations of a step, and an instruction, can do: later proofs cite these and do not unfold
the step. -/

namespace Sys2Proof.Machine

variable {s t : State}

theorem State.beginStep_of_halted (h : s.halted = true) : s.beginStep = none := by
  simp [State.beginStep, h]

theorem State.beginStep_of_not_halted (h : s.halted = false) :
    s.beginStep = some (decodeWord s.fetchWord, s.advancePc) := by
  simp [State.beginStep, h]

theorem step_of_beginStep_none (h : s.beginStep = none) : step s = .next s := by
  simp [step, h]

theorem step_of_beginStep_some {i : Instr} (h : s.beginStep = some (i, t)) : step s = exec i t := by
  simp [step, h]

theorem State.stepCommand_of_step (h : step s = .next t) : s.stepCommand = (t, !t.halted) := by
  simp [State.stepCommand, h]

/-- Everything an instruction can do, said once: it writes a register or `OUT` with or without the carry, it writes
`PC`, it changes nothing, or it halts. -/
theorem exec_cases (i : Instr) (s : State) :
    (∃ x y, exec i s = .next ((s.setA x).setCarry y) ∧ i.opcode = 0x0) ∨
    (∃ x y, exec i s = .next ((s.setB x).setCarry y) ∧ i.opcode = 0x5) ∨
    (∃ x, exec i s = .next (s.setA x) ∧ i.opcode ∈ [(0x1 : Nibble), 0x2, 0x3]) ∨
    (∃ x, exec i s = .next (s.setB x) ∧ i.opcode ∈ [(0x4 : Nibble), 0x6, 0x7]) ∨
    (∃ x, exec i s = .next (s.setOut x) ∧ i.opcode ∈ [(0x9 : Nibble), 0xB]) ∨
    (exec i s = .next (s.setHalted true) ∧ i.opcode ∈ [(0x8 : Nibble), 0xA, 0xC, 0xD]) ∨
    (exec i s = .next (s.setPc i.lowNibble) ∧ (i.opcode = 0xF ∨ (i.opcode = 0xE ∧ s.carryFlag = 0#1))) ∨
    (exec i s = .next s ∧ i.opcode = 0xE ∧ s.carryFlag ≠ 0#1) := by
  cases i with
  | addA imm => exact .inl ⟨_, _, rfl, rfl⟩
  | addB imm => exact .inr (.inl ⟨_, _, rfl, rfl⟩)
  | movAB low => exact .inr (.inr (.inl ⟨_, rfl, by simp [Instr.opcode]⟩))
  | inA imm => exact .inr (.inr (.inl ⟨_, rfl, by simp [Instr.opcode]⟩))
  | movAImm imm => exact .inr (.inr (.inl ⟨_, rfl, by simp [Instr.opcode]⟩))
  | movBA low => exact .inr (.inr (.inr (.inl ⟨_, rfl, by simp [Instr.opcode]⟩)))
  | inB imm => exact .inr (.inr (.inr (.inl ⟨_, rfl, by simp [Instr.opcode]⟩)))
  | movBImm imm => exact .inr (.inr (.inr (.inl ⟨_, rfl, by simp [Instr.opcode]⟩)))
  | outB low => exact .inr (.inr (.inr (.inr (.inl ⟨_, rfl, by simp [Instr.opcode]⟩))))
  | outImm imm => exact .inr (.inr (.inr (.inr (.inl ⟨_, rfl, by simp [Instr.opcode]⟩))))
  | und8 low => exact .inr (.inr (.inr (.inr (.inr (.inl ⟨rfl, by simp [Instr.opcode]⟩)))))
  | undA low => exact .inr (.inr (.inr (.inr (.inr (.inl ⟨rfl, by simp [Instr.opcode]⟩)))))
  | undC low => exact .inr (.inr (.inr (.inr (.inr (.inl ⟨rfl, by simp [Instr.opcode]⟩)))))
  | undD low => exact .inr (.inr (.inr (.inr (.inr (.inl ⟨rfl, by simp [Instr.opcode]⟩)))))
  | jmpImm imm => exact .inr (.inr (.inr (.inr (.inr (.inr (.inl ⟨rfl, .inl rfl⟩))))))
  | jncImm imm =>
    by_cases h : s.carryFlag = 0#1
    · exact .inr (.inr (.inr (.inr (.inr (.inr (.inl ⟨congrArg Host.Outcome.next (if_pos h), .inr ⟨rfl, h⟩⟩))))))
    · exact .inr (.inr (.inr (.inr (.inr (.inr (.inr ⟨congrArg Host.Outcome.next (if_neg h), rfl, h⟩))))))

end Sys2Proof.Machine
end

