-- ==== Sys2Proof/Laws/HostOps.lean ====
section
/-! SUPPORT. What `load`, the host's operations and the host's loops do, in their smallest steps. -/

namespace Sys2Proof.Machine

variable (s : State)

theorem State.loadOp_eq (p : List Byte) : s.loadOp p = State.reset.setMem (Memory.copyFrom [] 0 p) := rfl

theorem State.wf_loadOp (p : List Byte) : (s.loadOp p).memory.wf = true :=
  Memory.wf_copyFrom Memory.wf_nil 0 p

theorem State.wf_placeWord (h : s.memory.wf = true) (w : Byte) : (s.placeWord w).memory.wf = true :=
  Memory.wf_write h _ _

/-- The next step of `s.placeWord w` fetches `w`. -/
theorem State.fetchWord_placeWord (h : s.memory.wf = true) (w : Byte) : (s.placeWord w).fetchWord = w := by
  simp [State.placeWord, State.fetchWord, Memory.read_write h]

@[simp] theorem State.stepN_zero : State.stepN 0 s = s := rfl

@[simp] theorem State.stepN_succ (n : Nat) : State.stepN (n + 1) s = State.stepN n s.stepCommand.1 := rfl

/-- The last of `n + 1` steps taken off. -/
theorem State.stepN_succ_last (n : Nat) (s : State) :
    State.stepN (n + 1) s = (State.stepN n s).stepCommand.1 := by
  induction n generalizing s with
  | zero => rfl
  | succ n ih => rw [State.stepN_succ, ih, ← State.stepN_succ]

@[simp] theorem State.runHost_nil : State.runHost [] s = s := rfl

@[simp] theorem State.runHost_cons (op : HostOp) (rest : List HostOp) :
    State.runHost (op :: rest) s = State.runHost rest (s.hostOp op).1 := rfl

/-- A driver goes on after a step that returned true. -/
theorem State.drive_of_continue {s : State} (h : s.stepCommand.2 = true) (fuel : Nat) :
    State.drive (fuel + 1) s = State.drive fuel s.stepCommand.1 := by
  simp [State.drive, h]

/-- A driver ends at a step that returned false. -/
theorem State.drive_of_stop {s : State} (h : s.stepCommand.2 = false) (fuel : Nat) :
    State.drive (fuel + 1) s = .ended s.stepCommand.1 := by
  simp [State.drive, h]

/-- Packaged once: what holds at reset and is kept by every host operation holds of every reachable state. -/
theorem State.Reachable_induction {P : State → Prop} (h0 : P State.reset)
    (hop : ∀ s op, P s → P (s.hostOp op).1) (ops : List HostOp) : P (State.runHost ops State.reset) := by
  have key : ∀ (ops : List HostOp) (s : State), P s → P (State.runHost ops s) := by
    intro ops
    induction ops with
    | nil => exact fun _ h => h
    | cons op rest ih => exact fun s h => ih _ (hop s op h)
  exact key ops _ h0

end Sys2Proof.Machine
end

