-- ==== Sys2Proof/Laws/PerInstr.lean ====
section
/-! SUPPORT. The family of statements made per instruction: the fields of an instruction's word are its opcode and its
low nibble (30_encoding.md R70). -/

namespace Sys2Proof.Laws

/-- The word of `i` holds its opcode in bits 7:4 and its low nibble in bits 3:0. -/
def EncodedFields.Statement (i : Instr) : Prop := opcOf (encodeWord i) = i.opcode ∧ immOf (encodeWord i) = i.lowNibble

theorem EncodedFields.of_append (i : Instr) : EncodedFields.Statement i :=
  ⟨opcOf_append _ _, immOf_append _ _⟩

theorem EncodedFields.addA (n : Nibble) : EncodedFields.Statement (.addA n) := EncodedFields.of_append _
theorem EncodedFields.movAB (n : Nibble) : EncodedFields.Statement (.movAB n) := EncodedFields.of_append _
theorem EncodedFields.inA (n : Nibble) : EncodedFields.Statement (.inA n) := EncodedFields.of_append _
theorem EncodedFields.movAImm (n : Nibble) : EncodedFields.Statement (.movAImm n) := EncodedFields.of_append _
theorem EncodedFields.movBA (n : Nibble) : EncodedFields.Statement (.movBA n) := EncodedFields.of_append _
theorem EncodedFields.addB (n : Nibble) : EncodedFields.Statement (.addB n) := EncodedFields.of_append _
theorem EncodedFields.inB (n : Nibble) : EncodedFields.Statement (.inB n) := EncodedFields.of_append _
theorem EncodedFields.movBImm (n : Nibble) : EncodedFields.Statement (.movBImm n) := EncodedFields.of_append _
theorem EncodedFields.und8 (n : Nibble) : EncodedFields.Statement (.und8 n) := EncodedFields.of_append _
theorem EncodedFields.outB (n : Nibble) : EncodedFields.Statement (.outB n) := EncodedFields.of_append _
theorem EncodedFields.undA (n : Nibble) : EncodedFields.Statement (.undA n) := EncodedFields.of_append _
theorem EncodedFields.outImm (n : Nibble) : EncodedFields.Statement (.outImm n) := EncodedFields.of_append _
theorem EncodedFields.undC (n : Nibble) : EncodedFields.Statement (.undC n) := EncodedFields.of_append _
theorem EncodedFields.undD (n : Nibble) : EncodedFields.Statement (.undD n) := EncodedFields.of_append _
theorem EncodedFields.jncImm (n : Nibble) : EncodedFields.Statement (.jncImm n) := EncodedFields.of_append _
theorem EncodedFields.jmpImm (n : Nibble) : EncodedFields.Statement (.jmpImm n) := EncodedFields.of_append _

end Sys2Proof.Laws
end

