-- ==== Sys2Proof/Laws/Text.lean ====
section
/-! SUPPORT. One lemma per function of the program-text parser. -/

namespace Sys2Proof.Machine

/-- A line without LF, ended by LF, is the first line. -/
theorem splitLines_line (line rest : List Char) (h : '\n' ∉ line) :
    splitLines (line ++ '\n' :: rest) = line :: splitLines rest := by
  induction line with
  | nil => simp [splitLines]
  | cons c cs ih =>
    simp only [List.mem_cons, not_or] at h
    have hc : c ≠ '\n' := fun e => h.1 e.symm
    simp [splitLines, hc, ih h.2]

/-- A text without LF is one line. -/
theorem splitLines_single (line : List Char) (h : '\n' ∉ line) : splitLines line = [line] := by
  induction line with
  | nil => rfl
  | cons c cs ih =>
    simp only [List.mem_cons, not_or] at h
    have hc : c ≠ '\n' := fun e => h.1 e.symm
    simp [splitLines, hc, ih h.2]

/-- A text without whitespace is its own trimming. -/
theorem trim_of_no_ws {ws : Char → Bool} {t : List Char} (h : ∀ c ∈ t, ws c = false) : trim ws t = t := by
  have drop : ∀ u : List Char, (∀ c ∈ u, ws c = false) → u.dropWhile ws = u := by
    intro u hu
    cases u with
    | nil => rfl
    | cons c cs => simp [List.dropWhile, hu c (by simp)]
  simp [trim, drop t h, drop t.reverse (by simpa using h)]

/-- A text without a slash has no comment to cut. -/
theorem cutComment_of_no_slash {t : List Char} (h : '/' ∉ t) : cutComment t = t := by
  induction t with
  | nil => rfl
  | cons c cs ih =>
    simp only [List.mem_cons, not_or] at h
    have hb : beginsComment (c :: cs) = false := by
      unfold beginsComment
      split
      · rename_i heq; simp at heq; exact absurd heq.1.symm h.1
      · rfl
    simp [cutComment, hb, ih h.2]

/-- The digits of a byte, read back. -/
theorem binaryValue_render8 (w : Byte) : BitVec.ofNat 8 (binaryValue (render8 w)) = w := by
  revert w; decide

/-- A rendered byte is exactly 8 binary digits. -/
theorem isBinaryWord_render8 (w : Byte) : isBinaryWord (render8 w) = true := by
  revert w; decide

/-- A rendered byte holds no character but the two digits. -/
theorem mem_render8 {w : Byte} {c : Char} (h : c ∈ render8 w) : c = '0' ∨ c = '1' := by
  simp only [render8, renderBits, List.mem_map] at h
  obtain ⟨k, -, rfl⟩ := h
  cases w.getMsbD k <;> simp

end Sys2Proof.Machine
end

