-- ==== Sys2Proof/Tests/Slice0.lean ====
section
/-! SUPPORT. The model's own tests. Expected values are those of the spec: the source's scenarios and the derived vectors
of 95_test_vectors.md (named in each comment), the encodings of 30_encoding.md R74, and the words of
spec/opcode_table.json. The second half shows, for every statement with hypotheses, values that meet them. -/

namespace Sys2Proof.Tests
open Sys2Proof Sys2Proof.Machine

/-- A state with one word at its program counter and zero elsewhere in memory. -/
def at' (w : Byte) (pc : Addr) (a b : Nibble) (c : Bit) : State :=
  { State.reset with
    programCounter := pc, registerA := a, registerB := b, carryFlag := c, memory := Memory.write [] pc w }

/-- What one step gives, as one tuple: A, B, OUT, C, PC, HALTED and the continue bit. -/
def after (s : State) : Nibble × Nibble × Nibble × Bit × Addr × Bool × Bool :=
  let r := s.stepCommand
  (r.1.registerA, r.1.registerB, r.1.output, r.1.carryFlag, r.1.programCounter, r.1.halted, r.2)

/-! ### WellFormed -/

-- R54: a program of 17 instructions does not fit; one of 16 does.
theorem test_program_too_long_refused : Program.wellFormed (List.replicate 17 (.addA 0)) = false := by decide
theorem test_program_of_sixteen_accepted : Program.wellFormed (List.replicate 16 (.jmpImm 15)) = true := by decide

/-! ### Decode: one word per opcode, written out bit by bit from R74 -/

theorem test_decode_addA : decodeWord 0b00001000 = .addA 8 := by decide
theorem test_decode_movAB : decodeWord 0b00011111 = .movAB 15 := by decide
theorem test_decode_inA : decodeWord 0b00100110 = .inA 6 := by decide
theorem test_decode_movAImm : decodeWord 0b00110000 = .movAImm 0 := by decide
theorem test_decode_movBA : decodeWord 0b01001010 = .movBA 10 := by decide
theorem test_decode_addB : decodeWord 0b01010111 = .addB 7 := by decide
theorem test_decode_inB : decodeWord 0b01101001 = .inB 9 := by decide
theorem test_decode_movBImm : decodeWord 0b01110101 = .movBImm 5 := by decide
theorem test_decode_und8 : decodeWord 0b10001111 = .und8 15 := by decide
theorem test_decode_outB : decodeWord 0b10011111 = .outB 15 := by decide
theorem test_decode_undA : decodeWord 0b10100000 = .undA 0 := by decide
theorem test_decode_outImm : decodeWord 0b10110101 = .outImm 5 := by decide
theorem test_decode_undC : decodeWord 0b11001111 = .undC 15 := by decide
theorem test_decode_undD : decodeWord 0b11010000 = .undD 0 := by decide
theorem test_decode_jncImm : decodeWord 0b11100010 = .jncImm 2 := by decide
theorem test_decode_jmpImm : decodeWord 0b11110001 = .jmpImm 1 := by decide
theorem test_decode_nothing_rejected_by_name : decode [] = .error .noByte := by decide
theorem test_decode_leaves_the_rest : decode [0xF1, 0x8F] = .ok (.jmpImm 1, [0x8F]) := by decide
theorem test_encode_outImm : encode (.outImm 5) = [0b10110101] := by decide
theorem test_table_word_jnc : decodeTableWord 8 0xE2 = some (.jncImm 2) := by decide

-- R74's table: every word is selected by exactly one row (R76: 192 defined words, 64 halting words).
theorem test_rows_disjoint : opcodeTable.Pairwise fun r q => r.pattern &&& q.mask ≠ q.pattern := by decide
theorem test_halting_words : ((List.range 256).filter fun w => isHaltingWord (BitVec.ofNat 8 w)).length = 64 := by decide

/-! ### One step of each instruction: A, B, OUT, C, PC, HALTED, continue -/

-- L2.1: A=15 + 1 wraps with carry; A=9 with C=1, + 0 clears C.
theorem test_addA_wraps : after (at' 0x01 0 15 2 0) = (0, 2, 0, 1, 1, false, true) := by decide
theorem test_addA_clears_carry : after (at' 0x00 3 9 2 1) = (9, 2, 0, 0, 4, false, true) := by decide
-- L2.1: sum exactly 15 and exactly 16.
theorem test_addB_sum_sixteen : after (at' 0x57 0 3 9 0) = (3, 0, 0, 1, 1, false, true) := by decide
theorem test_addB_sum_fifteen : after (at' 0x50 15 3 15 1) = (3, 15, 0, 0, 0, false, true) := by decide
-- L2.2.
theorem test_movAB : after (at' 0x1F 0 3 12 1) = (12, 12, 0, 1, 1, false, true) := by decide
theorem test_inA : after (at' 0x26 0 0 1 1) = (6, 1, 0, 1, 1, false, true) := by decide
theorem test_movAImm : after (at' 0x30 15 9 1 1) = (0, 1, 0, 1, 0, false, true) := by decide
theorem test_movBA : after (at' 0x4A 0 5 0 0) = (5, 5, 0, 0, 1, false, true) := by decide
theorem test_inB : after (at' 0x69 0 1 0 0) = (1, 9, 0, 0, 1, false, true) := by decide
theorem test_movBImm : after (at' 0x75 0 1 0 1) = (1, 5, 0, 1, 1, false, true) := by decide
-- L2.3.
theorem test_outB : after (at' 0x9F 0 1 4 0) = (1, 4, 4, 0, 1, false, true) := by decide
theorem test_outImm : after (at' 0xB5 0 1 4 1) = (1, 4, 5, 1, 1, false, true) := by decide
-- L2.4: taken, not taken, not taken at the top of memory.
theorem test_jnc_taken : after (at' 0xE2 4 1 2 0) = (1, 2, 0, 0, 2, false, true) := by decide
theorem test_jnc_not_taken_wraps : after (at' 0xE7 15 1 2 1) = (1, 2, 0, 1, 0, false, true) := by decide
theorem test_jmp : after (at' 0xFF 0 1 2 1) = (1, 2, 0, 1, 15, false, true) := by decide
-- L2.5.
theorem test_und8 : after (at' 0x8F 0 1 2 1) = (1, 2, 0, 1, 1, true, false) := by decide
theorem test_undA : after (at' 0xA0 3 1 2 1) = (1, 2, 0, 1, 4, true, false) := by decide
theorem test_undC_at_top : after (at' 0xCF 15 1 2 0) = (1, 2, 0, 0, 0, true, false) := by decide
theorem test_undD : after (at' 0xD0 6 1 2 0) = (1, 2, 0, 0, 7, true, false) := by decide
theorem test_already_halted : ((at' 0x01 0 1 2 1).setHalted true).stepCommand = ((at' 0x01 0 1 2 1).setHalted true, false) := by
  decide

/-! ### Fetching a placed word, reset, load, snapshot -/

theorem test_withFetchWord : after (State.reset.withFetchWord 8 0x3F) = (15, 0, 0, 0, 1, false, true) := by decide
-- After reset alone the first instruction is 0x00, ADD A,0 (R205).
theorem test_first_step_from_reset : after State.reset = (0, 0, 0, 0, 1, false, true) := by decide
-- L2.6: load([0x3F,0x01]); 17 words, the last discarded; a wide entry.
theorem test_load_two :
    (((at' 0x80 5 1 2 1).loadOp [0x3F, 0x01]).memory, ((at' 0x80 5 1 2 1).loadOp [0x3F, 0x01]).programCounter) =
      ([(0, 0x3F), (1, 0x01)], 0) := by decide
theorem test_load_discards_seventeenth :
    (State.reset.loadOp (List.replicate 15 0xB0 ++ [0xF0, 0x80])).memory.entries = List.replicate 15 0xB0 ++ [0xF0] := by
  decide
theorem test_load_wide_entry : (State.reset.loadWide [0x1B5]).memory.read 0 = 0xB5 := by decide
theorem test_load_nothing_is_reset : ((at' 0x80 5 1 2 1).setRunning true).loadOp [] = State.reset := by decide
-- A zero entry is not listed, so that equal memories are equal data.
theorem test_load_zero_not_listed : (State.reset.loadOp [0, 0x01]).memory = [(1, 0x01)] := by decide
theorem test_write_zero_removes : Memory.write [(1, 0x01), (4, 0x02)] 1 0 = [(4, 0x02)] := by decide
theorem test_snapshot_memory : (at' 0x80 1 0 0 0).snapshot.memory = [0, 0x80] ++ List.replicate 14 0 := by decide
-- The driver ends at the first false, and counts the halting instruction (R189).
theorem test_driver_ends : State.drive 5 (at' 0xC0 2 0 0 0) = .ended ((at' 0xC0 2 0 0 0).stepCommand.1) := by decide
theorem test_driver_ends_at_second_step :
    State.drive 9 (State.reset.loadOp [0x90, 0x80]) = .ended (State.stepN 2 (State.reset.loadOp [0x90, 0x80])) := by decide
theorem test_instruction_count : State.countInstructions 3 (at' 0xC0 2 0 0 0) = 1 := by decide
-- R181: the halting word's address.
theorem test_halt_address : (at' 0xCF 15 0 0 0).stepCommand.1.haltAddress = 15 := by decide

/-! ### Program text (L2.7, D17) -/

theorem test_parse_comment_and_spaces :
    parseProgram Config.defaultWS "  0011 0000   // MOV A,0\n".toList = .words [0x30] := by decide
theorem test_parse_skips : parseProgram Config.defaultWS "// comment\n  \n00110000\r\n".toList = .words [0x30] := by decide
theorem test_parse_seven_digits :
    parseProgram Config.defaultWS " 0011 000 // seven\n".toList = .parseError "0011 000 // seven".toList := by decide
theorem test_parse_nine_digits :
    parseProgram Config.defaultWS "00110000\n001100001\nx".toList = .parseError "001100001".toList := by decide
theorem test_render : (render4 5, render8 0xB5) = ("0101".toList, "10110101".toList) := by decide
theorem test_disassemble : (disassemble (.movAImm 15), disassemble (.jmpImm 1)) = ("MOV A,15".toList, "JMP 1".toList) := by
  decide

/-! ### Witnesses: values that meet the hypotheses of each statement together -/

-- The instruction statements: not halted, the word at `PC` (at the ends of the immediate's and the address's range).
theorem witness_AddAImmWritesSumAndCarry :
    (at' 0x0F 15 15 0 1).halted = false ∧ (at' 0x0F 15 15 0 1).memory.read 15 = 0x0#4 ++ 15#4 := by decide
theorem witness_AddBImmWritesSumAndCarry :
    (at' 0x50 0 0 15 1).halted = false ∧ (at' 0x50 0 0 15 1).memory.read 0 = 0x5#4 ++ 0#4 := by decide
theorem witness_MovABCopiesBToA :
    (at' 0x1F 15 3 12 1).halted = false ∧ (at' 0x1F 15 3 12 1).memory.read 15 = 0x1#4 ++ 15#4 := by decide
theorem witness_InALoadsImmediate :
    (at' 0x2F 15 3 12 1).halted = false ∧ (at' 0x2F 15 3 12 1).memory.read 15 = 0x2#4 ++ 15#4 := by decide
theorem witness_MovAImmLoadsImmediate :
    (at' 0x30 0 9 12 1).halted = false ∧ (at' 0x30 0 9 12 1).memory.read 0 = 0x3#4 ++ 0#4 := by decide
theorem witness_MovBACopiesAToB :
    (at' 0x4A 7 5 0 0).halted = false ∧ (at' 0x4A 7 5 0 0).memory.read 7 = 0x4#4 ++ 10#4 := by decide
theorem witness_InBLoadsImmediate :
    (at' 0x69 0 0 0 0).halted = false ∧ (at' 0x69 0 0 0 0).memory.read 0 = 0x6#4 ++ 9#4 := by decide
theorem witness_MovBImmLoadsImmediate :
    (at' 0x7F 15 0 0 1).halted = false ∧ (at' 0x7F 15 0 0 1).memory.read 15 = 0x7#4 ++ 15#4 := by decide
theorem witness_OutBCopiesBToOutput :
    (at' 0x90 0 0 4 1).halted = false ∧ (at' 0x90 0 0 4 1).memory.read 0 = 0x9#4 ++ 0#4 := by decide
theorem witness_OutImmLoadsOutput :
    (at' 0xBF 15 0 4 1).halted = false ∧ (at' 0xBF 15 0 4 1).memory.read 15 = 0xB#4 ++ 15#4 := by decide
theorem witness_JncImmJumpsIffNoCarry :
    ((at' 0xE0 15 0 0 0).halted = false ∧ (at' 0xE0 15 0 0 0).memory.read 15 = 0xE#4 ++ 0#4 ∧ (at' 0xE0 15 0 0 0).carryFlag = 0) ∧
    ((at' 0xEF 0 0 0 1).halted = false ∧ (at' 0xEF 0 0 0 1).memory.read 0 = 0xE#4 ++ 15#4 ∧ (at' 0xEF 0 0 0 1).carryFlag = 1) := by
  decide
theorem witness_JmpImmJumps :
    (at' 0xF0 15 0 0 0).halted = false ∧ (at' 0xF0 15 0 0 0).memory.read 15 = 0xF#4 ++ 0#4 := by decide
theorem witness_HaltingOpcodesSetHaltedOnly :
    (at' 0x80 0 1 2 1).halted = false ∧ (at' 0x80 0 1 2 1).memory.read 0 ∈ [0x8#4 ++ 0#4, 0xA#4 ++ 0#4, 0xC#4 ++ 0#4, 0xD#4 ++ 0#4] ∧
    (at' 0xAF 15 1 2 1).memory.read 15 ∈ [0x8#4 ++ 15#4, 0xA#4 ++ 15#4, 0xC#4 ++ 15#4, 0xD#4 ++ 15#4] ∧
    (at' 0xC0 3 1 2 1).memory.read 3 ∈ [0x8#4 ++ 0#4, 0xA#4 ++ 0#4, 0xC#4 ++ 0#4, 0xD#4 ++ 0#4] ∧
    (at' 0xDF 6 1 2 1).memory.read 6 ∈ [0x8#4 ++ 15#4, 0xA#4 ++ 15#4, 0xC#4 ++ 15#4, 0xD#4 ++ 15#4] := by decide
theorem witness_DecodeEncodeRoundTrip : (Instr.undD 15).wellFormed = true := by decide
theorem witness_IgnoredNibbleHasNoEffect : 0xD#4 ∈ [0x1#4, 0x4#4, 0x8#4, 0x9#4, 0xA#4, 0xC#4, 0xD#4] := by decide
theorem witness_StepRunsDecodedInstruction :
    (at' 0xF1 15 0 0 0).halted = false ∧
    decode [(at' 0xF1 15 0 0 0).memory.read (at' 0xF1 15 0 0 0).programCounter] = .ok (.jmpImm 1, []) ∧
    (Instr.jmpImm 1).wellFormed = true := by decide
theorem witness_HaltedStepChangesNothing : ((at' 0x01 0 1 2 1).setHalted true).halted = true := by decide
-- A taken jump, a not-taken one at 15, and a plain instruction.
theorem witness_NextProgramCounter :
    ((at' 0xE3 15 0 0 0).halted = false ∧ ∃ t, step (at' 0xE3 15 0 0 0) = .next t) ∧
    ((at' 0xE3 15 0 0 1).halted = false ∧ ∃ t, step (at' 0xE3 15 0 0 1) = .next t) ∧
    ((at' 0x90 0 0 0 1).halted = false ∧ ∃ t, step (at' 0x90 0 0 0 1) = .next t) :=
  ⟨⟨rfl, _, rfl⟩, ⟨rfl, _, rfl⟩, ⟨rfl, _, rfl⟩⟩
-- Each clause of the frame: an instruction whose opcode is outside the clause's list.
theorem witness_InstructionFrame :
    (∃ t, exec (.jmpImm 3) (at' 0 0 1 2 1) = .next t) ∧ (Instr.jmpImm 3).opcode ∉ [0x0#4, 0x1#4, 0x2#4, 0x3#4] ∧
    (Instr.jmpImm 3).opcode ∉ [0x4#4, 0x5#4, 0x6#4, 0x7#4] ∧ (Instr.jmpImm 3).opcode ∉ [0x9#4, 0xB#4] ∧
    (Instr.jmpImm 3).opcode ∉ [0x0#4, 0x5#4] ∧ (Instr.jmpImm 3).opcode ∉ [0x8#4, 0xA#4, 0xC#4, 0xD#4] ∧
    (∃ t, exec (.addA 3) (at' 0 0 1 2 1) = .next t) ∧ (Instr.addA 3).opcode ∉ [0xE#4, 0xF#4] :=
  ⟨⟨_, rfl⟩, by decide, by decide, by decide, by decide, by decide, ⟨_, rfl⟩, by decide⟩
-- Neither read nor written, and written without being read.
theorem witness_RegisterAReadersAndWriters :
    (∃ t, exec (.addA 15) (at' 0 0 15 2 0) = .next t) ∧
    (∃ t, exec (.outB 0) (at' 0 0 15 2 0) = .next t) ∧ (Instr.outB 0).opcode ∉ [0x0#4, 0x1#4, 0x2#4, 0x3#4] ∧
    (Instr.outB 0).opcode ∉ [0x0#4, 0x4#4] ∧
    (∃ t, exec (.movAB 0) (at' 0 0 15 2 0) = .next t) ∧ (Instr.movAB 0).opcode ∉ [0x0#4, 0x4#4] :=
  ⟨⟨_, rfl⟩, ⟨_, rfl⟩, by decide, by decide, ⟨_, rfl⟩, by decide⟩
theorem witness_RegisterBReadersAndWriters :
    (∃ t, exec (.addB 15) (at' 0 0 1 15 0) = .next t) ∧
    (∃ t, exec (.outImm 0) (at' 0 0 15 2 0) = .next t) ∧ (Instr.outImm 0).opcode ∉ [0x4#4, 0x5#4, 0x6#4, 0x7#4] ∧
    (Instr.outImm 0).opcode ∉ [0x1#4, 0x5#4, 0x9#4] ∧
    (∃ t, exec (.movBA 0) (at' 0 0 15 2 0) = .next t) ∧ (Instr.movBA 0).opcode ∉ [0x1#4, 0x5#4, 0x9#4] :=
  ⟨⟨_, rfl⟩, ⟨_, rfl⟩, by decide, by decide, ⟨_, rfl⟩, by decide⟩
theorem witness_CarryReadersAndWriters :
    (∃ t, exec (.addA 1) (at' 0 0 15 2 0) = .next t) ∧ (∃ t, exec (.addB 0) (at' 0 0 1 15 1) = .next t) ∧
    (∃ t, exec (.movAImm 0) (at' 0 0 15 2 1) = .next t) ∧ (Instr.movAImm 0).opcode ∉ [0x0#4, 0x5#4] ∧
    (Instr.movAImm 0).opcode ≠ 0xE#4 :=
  ⟨⟨_, rfl⟩, ⟨_, rfl⟩, ⟨_, rfl⟩, by decide, by decide⟩
-- Sums 15 and 16, and an instruction that is no addition.
theorem witness_AdditionLaw :
    (∃ t, exec (.addA 8) (at' 0 0 7 0 1) = .next t ∧ t.carryFlag = 0) ∧
    (∃ t, exec (.addB 8) (at' 0 0 0 8 0) = .next t ∧ t.carryFlag = 1) ∧
    (∃ t, exec (.undC 0) (at' 0 0 7 0 1) = .next t) ∧ (∀ m, Instr.undC 0 ≠ .addA m ∧ Instr.undC 0 ≠ .addB m) :=
  ⟨⟨_, rfl, by decide⟩, ⟨_, rfl, by decide⟩, ⟨_, rfl⟩, by decide⟩
theorem witness_OutputWrittenByOutOnly :
    (∃ t, exec (.inB 4) (at' 0 0 7 0 1) = .next t) ∧ (Instr.inB 4).opcode ∉ [0x9#4, 0xB#4] :=
  ⟨⟨_, rfl⟩, by decide⟩
-- A machine that is not halted, stepping into a halt; a halted one; an instruction.
theorem witness_HaltedSetAndCleared :
    (at' 0x80 0 0 0 0).halted = false ∧ ((at' 0x80 0 0 0 0).hostOp .step).1.halted = true ∧
    ((at' 0x80 0 0 0 0).setHalted true).halted = true ∧
    (((at' 0x80 0 0 0 0).setHalted true).hostOp (.load [1])).1.halted = false ∧
    (∃ t, exec (.undA 3) (at' 0 0 7 0 1) = .next t) ∧ (∃ t, exec (.jncImm 3) (at' 0 0 7 0 1) = .next t) :=
  ⟨by decide, by decide, by decide, by decide, ⟨_, rfl⟩, ⟨_, rfl⟩⟩
theorem witness_MemoryWrittenByResetAndLoadOnly :
    (∃ t, step (at' 0x01 0 0 0 0) = .next t) ∧ (HostOp.setRunning true).keepsProgram = true :=
  ⟨⟨_, rfl⟩, rfl⟩
-- Both cases of `r`, and an address just past the program.
theorem witness_ResetValues :
    (State.reset.hostOp (.load [0x3F])).1 = (State.reset.hostOp (.load [0x3F])).1 ∧ State.reset = (State.reset.hostOp .reset).1 ∧
    [0x3F#8].length ≤ (1#4).toNat := by decide
-- The last entry the program reaches, the first it does not, and the top of memory of a program of 17.
theorem witness_LoadCopiesFirstSixteen :
    (State.reset.loadOp [0x3F, 0x01]).memory.read 1 = 0x01 ∧ (State.reset.loadOp [0x3F, 0x01]).memory.read 2 = 0 ∧
    (State.reset.loadOp (List.replicate 16 0xB0 ++ [0x80])).memory.read 15 = 0xB0 := by decide
theorem witness_FirstFetchIsAtAddressZero :
    State.reset = ((at' 0x80 5 0 0 0).hostOp .reset).1 ∧
    State.reset.loadOp [0x3F] = ((at' 0x80 5 0 0 0).hostOp (.load [0x3F])).1 := by decide
theorem witness_SnapshotShowsWholeState :
    (at' 0x80 5 1 2 1).memory.wf = true ∧ (at' 0x80 5 1 2 1).snapshot = (at' 0x80 5 1 2 1).snapshot := by decide
theorem witness_EqualReadsMeanEqualMemories :
    Memory.wf [(0, 0x01), (15, 0xF0)] = true ∧
    ∀ a : BitVec 4, Memory.read [(0, 0x01), (15, 0xF0)] a = Memory.read (Memory.write [(0, 0x01)] 15 0xF0) a := by decide
theorem witness_MemoryIsTheLastLoads :
    ∀ op ∈ [HostOp.step, .getState, .setRunning true, .step], op.keepsProgram = true := by decide
theorem witness_HaltedIsTerminal :
    (at' 0xA0 3 0 0 0).halted = false ∧ ((at' 0xA0 3 0 0 0).hostOp .step).1.halted = true ∧
    ∀ op ∈ [HostOp.step, .setRunning true], op.keepsProgram = true := by decide
theorem witness_Invariant :
    (at' 0xA0 3 0 0 0).Inv ∧ ((at' 0xA0 3 0 0 0).stepCommand.1).Inv ∧ ((at' 0xA0 3 0 0 0).stepCommand.1).halted = true ∧
    ∃ t, step (at' 0xA0 3 0 0 0) = .next t :=
  ⟨⟨by decide, by decide⟩, ⟨by decide, by decide⟩, by decide, ⟨_, rfl⟩⟩
theorem witness_HaltingWordIsRecoverable :
    (at' 0xCF 15 0 0 0).halted = false ∧ (∃ t, step (at' 0xCF 15 0 0 0) = .next t ∧ t.halted = true) ∧
    ∃ s : State, s.Reachable ∧ s.halted = true :=
  ⟨rfl, ⟨_, rfl, rfl⟩, State.runHost [.load [0x8F], .step] State.reset, ⟨_, rfl⟩, by decide⟩
theorem witness_JumpToItselfLoopsForever :
    (at' 0xFF 15 0 0 0).halted = false ∧
    (at' 0xFF 15 0 0 0).memory.read (at' 0xFF 15 0 0 0).programCounter = 0xF#4 ++ (at' 0xFF 15 0 0 0).programCounter := by decide
theorem witness_ZeroMemoryRunsForever :
    State.reset.halted = false ∧ ∀ a : BitVec 4, State.reset.memory.read a = 0 := by decide
theorem witness_CarrySticksBetweenAdditions :
    (∀ k < 2, (State.stepN k (State.reset.loadOp [0x33, 0xB9])).halted = false →
      (decodeWord ((State.stepN k (State.reset.loadOp [0x33, 0xB9])).memory.read
        (State.stepN k (State.reset.loadOp [0x33, 0xB9])).programCounter)).opcode ∉ [0x0#4, 0x5#4]) ∧
    (State.reset.loadOp [0x00, 0xE7]).halted = false ∧ (State.reset.loadOp [0x00, 0xE7]).memory.read 0 = 0x00#8 ∧
    (State.reset.loadOp [0x00, 0xE7]).memory.read (0 + 1) = 0xE#4 ++ 7#4 := by decide
-- A run ended by its last call, one ended with fuel left, and one out of fuel.
theorem witness_DrivenRunEndsAtFirstHalt :
    (∃ t, State.drive 1 (at' 0xC0 2 0 0 0) = .ended t) ∧ (∃ t, State.drive 3 (State.reset.loadOp [0x90, 0x80]) = .ended t) ∧
    ∃ t, State.drive 1 (at' 0x90 2 0 0 0) = .outOfFuel t :=
  ⟨⟨_, rfl⟩, ⟨_, rfl⟩, ⟨_, rfl⟩⟩
theorem witness_ParseThenLoadReproducesTheBytes :
    Config.defaultWS '0' = false ∧ Config.defaultWS '1' = false ∧
    ∀ l ∈ [['0', '0', '1', '1', '1', '1', '1', '1'], ['0', '0', '0', '0', '0', '0', '0', '1']],
      l.length = 8 ∧ ∀ c ∈ l, c = '0' ∨ c = '1' :=
  ⟨by decide, by decide, by simp⟩
-- Seven digits before a comment; eight characters of which one is no digit.
theorem witness_ParseRejectsBadLines :
    Config.defaultWS '/' = false ∧ '\n' ∉ "0011 000 ".toList ++ "// x".toList ∧ '/' ∉ "0011 000 ".toList ∧
    (∃ r, "// x".toList = '/' :: '/' :: r) ∧ ("0011 000 ".toList.filter fun c => !Config.defaultWS c) ≠ [] ∧
    ("0011 000 ".toList.filter fun c => !Config.defaultWS c).length ≠ 8 ∧
    ∃ c ∈ "0011000x".toList.filter fun c => !Config.defaultWS c, c ≠ '0' ∧ c ≠ '1' :=
  ⟨by decide, by decide, by decide, ⟨[' ', 'x'], by decide⟩, by decide, by decide, 'x', by decide, by decide, by decide⟩
theorem witness_FirstBadLineIsReported :
    parseLines Config.defaultWS ["00110000".toList] = .words [0x30] ∧ isSkipped Config.defaultWS "0x".toList = false ∧
    isBinaryWord (instructionText Config.defaultWS "0x".toList) = false := by decide
theorem witness_SkippedLinesGiveNoWord :
    Config.defaultWS '/' = false ∧ '\n' ∉ [' ', ' '] ++ "// c".toList ∧ (∀ c ∈ [' ', ' '], Config.defaultWS c = true) ∧
    ∃ r, "// c".toList = '/' :: '/' :: r :=
  ⟨by decide, by decide, by simp [Config.defaultWS], [' ', 'c'], by decide⟩
theorem witness_MemoryOperationsKeepCanonicalForm : Memory.wf [(0, 0x01), (15, 0xF0)] = true := by decide

end Sys2Proof.Tests
end

section
/-! PROOFS. The rules the statements of 10_state.md rest on: one equation per instruction, what an instruction leaves
unchanged, and that an element an instruction does not read has no part in its effect. -/

namespace Sys2Proof.Machine

/-! ### One equation per instruction (40_step.md R105) -/

section
variable (n : Nibble) (s : State)

@[simp] theorem exec_addA : exec (.addA n) s =
    .next ((s.setA (aluResult s.registerA n)).setCarry (aluCarry s.registerA n)) := rfl
@[simp] theorem exec_addB : exec (.addB n) s =
    .next ((s.setB (aluResult s.registerB n)).setCarry (aluCarry s.registerB n)) := rfl
@[simp] theorem exec_movAB : exec (.movAB n) s = .next (s.setA s.registerB) := rfl
@[simp] theorem exec_inA : exec (.inA n) s = .next (s.setA n) := rfl
@[simp] theorem exec_movAImm : exec (.movAImm n) s = .next (s.setA n) := rfl
@[simp] theorem exec_movBA : exec (.movBA n) s = .next (s.setB s.registerA) := rfl
@[simp] theorem exec_inB : exec (.inB n) s = .next (s.setB n) := rfl
@[simp] theorem exec_movBImm : exec (.movBImm n) s = .next (s.setB n) := rfl
@[simp] theorem exec_outB : exec (.outB n) s = .next (s.setOut s.registerB) := rfl
@[simp] theorem exec_outImm : exec (.outImm n) s = .next (s.setOut n) := rfl
@[simp] theorem exec_und8 : exec (.und8 n) s = .next (s.setHalted true) := rfl
@[simp] theorem exec_undA : exec (.undA n) s = .next (s.setHalted true) := rfl
@[simp] theorem exec_undC : exec (.undC n) s = .next (s.setHalted true) := rfl
@[simp] theorem exec_undD : exec (.undD n) s = .next (s.setHalted true) := rfl
@[simp] theorem exec_jmpImm : exec (.jmpImm n) s = .next (s.setPc n) := rfl
theorem exec_jncImm : exec (.jncImm n) s = .next (if s.carryFlag = 0#1 then s.setPc n else s) := rfl

variable {s}

theorem exec_jncImm_of_no_carry (h : s.carryFlag = 0#1) : exec (.jncImm n) s = .next (s.setPc n) := by
  rw [exec_jncImm, if_pos h]

theorem exec_jncImm_of_carry (h : s.carryFlag ≠ 0#1) : exec (.jncImm n) s = .next s := by
  rw [exec_jncImm, if_neg h]

end

/-! ### What an instruction leaves unchanged -/

section
variable {i : Instr} {s t : State}

/-- The frame of an instruction with opcode `o`: an element it does not write keeps its value. -/
structure ExecFrame (o : Nibble) (s t : State) : Prop where
  /-- `A` (R22). -/
  registerA : o ∉ [0x0#4, 0x1#4, 0x2#4, 0x3#4] → t.registerA = s.registerA
  /-- `B` (R23). -/
  registerB : o ∉ [0x4#4, 0x5#4, 0x6#4, 0x7#4] → t.registerB = s.registerB
  /-- `C` (R26, R137). -/
  carryFlag : o ∉ [0x0#4, 0x5#4] → t.carryFlag = s.carryFlag
  /-- `OUT` (R28). -/
  output : o ∉ [0x9#4, 0xB#4] → t.output = s.output
  /-- `PC`, already advanced (R112, R162). -/
  programCounter : o ∉ [0xE#4, 0xF#4] → t.programCounter = s.programCounter
  /-- `MEM` (R53). -/
  memory : t.memory = s.memory
  /-- `RUNNING` (R31). -/
  running : t.running = s.running
  /-- `HALTED` (R30): a halting opcode sets it, nothing clears it. -/
  halted : t.halted = true ↔ o ∈ [0x8#4, 0xA#4, 0xC#4, 0xD#4] ∨ s.halted = true

/-- Every instruction has a next state, within its frame. -/
theorem exec_next_frame (i : Instr) (s : State) : ∃ t, exec i s = .next t ∧ ExecFrame i.opcode s t := by
  cases i with
  | jncImm n =>
    by_cases hc : s.carryFlag = 0#1
    · exact ⟨_, exec_jncImm_of_no_carry n hc, by constructor <;> simp [Instr.opcode]⟩
    · exact ⟨_, exec_jncImm_of_carry n hc, by constructor <;> simp [Instr.opcode]⟩
  | _ =>
    simp only [exec_addA, exec_addB, exec_movAB, exec_inA, exec_movAImm, exec_movBA, exec_inB, exec_movBImm, exec_outB,
      exec_outImm, exec_und8, exec_undA, exec_undC, exec_undD, exec_jmpImm, Host.Outcome.next.injEq, exists_eq_left']
    constructor <;> simp [Instr.opcode]

theorem exec_frame (h : exec i s = .next t) : ExecFrame i.opcode s t := by
  obtain ⟨u, hu, hframe⟩ := exec_next_frame i s
  obtain rfl := Host.Outcome.next.inj (hu.symm.trans h)
  exact hframe

/-! ### What an instruction does not read -/

/-- JNC reads the carry only: it commutes with an update that touches neither the carry nor `PC`. -/
theorem exec_jncImm_update {n : Nibble} (u : State → State) (hcarry : (u s).carryFlag = s.carryFlag)
    (hpc : (u s).setPc n = u (s.setPc n)) (h : exec (.jncImm n) s = .next t) :
    exec (.jncImm n) (u s) = .next (u t) := by
  rw [exec_jncImm, Host.Outcome.next.injEq] at h
  rw [exec_jncImm, hcarry, hpc, ← h, apply_ite u]

/-- An instruction that does not read `A` has the same effect whatever `A` holds. -/
theorem exec_setA (h : exec i s = .next t) (hread : i.opcode ∉ [0x0#4, 0x4#4]) (x : Nibble) :
    exec i (s.setA x) = .next (t.setA (if i.opcode ∈ [0x1#4, 0x2#4, 0x3#4] then t.registerA else x)) := by
  cases i with
  | addA | movBA => simp [Instr.opcode] at hread
  | jncImm => exact exec_jncImm_update (·.setA x) rfl rfl h
  | _ => obtain rfl := Host.Outcome.next.inj h; rfl

/-- An instruction that does not read `B` has the same effect whatever `B` holds. -/
theorem exec_setB (h : exec i s = .next t) (hread : i.opcode ∉ [0x1#4, 0x5#4, 0x9#4]) (x : Nibble) :
    exec i (s.setB x) = .next (t.setB (if i.opcode ∈ [0x4#4, 0x6#4, 0x7#4] then t.registerB else x)) := by
  cases i with
  | movAB | addB | outB => simp [Instr.opcode] at hread
  | jncImm => exact exec_jncImm_update (·.setB x) rfl rfl h
  | _ => obtain rfl := Host.Outcome.next.inj h; rfl

/-- An instruction other than JNC has the same effect whatever the carry holds. -/
theorem exec_setCarry (h : exec i s = .next t) (hread : i.opcode ≠ 0xE#4) (x : Bit) :
    exec i (s.setCarry x) = .next (t.setCarry (if i.opcode ∈ [0x0#4, 0x5#4] then t.carryFlag else x)) := by
  cases i with
  | jncImm => exact absurd rfl hread
  | _ => obtain rfl := Host.Outcome.next.inj h; rfl

/-- No instruction reads `HALTED`. -/
theorem exec_setHalted (h : exec i s = .next t) (b : Bool) :
    exec i (s.setHalted b) =
      .next (t.setHalted (if i.opcode ∈ [0x8#4, 0xA#4, 0xC#4, 0xD#4] then true else b)) := by
  cases i with
  | jncImm => exact exec_jncImm_update (·.setHalted b) rfl rfl h
  | _ => obtain rfl := Host.Outcome.next.inj h; rfl

/-! ### What the additions write, in numbers (41_alu_add.md R121 to R123) -/

theorem exec_addA_registerA {n : Nibble} (h : exec (.addA n) s = .next t) :
    t.registerA.toNat = (s.registerA.toNat + n.toNat) % 16 := by
  obtain rfl := Host.Outcome.next.inj ((exec_addA n s).symm.trans h)
  exact aluResult_toNat _ _

theorem exec_addA_carryFlag {n : Nibble} (h : exec (.addA n) s = .next t) :
    t.carryFlag = if s.registerA.toNat + n.toNat > 15 then 1 else 0 := by
  obtain rfl := Host.Outcome.next.inj ((exec_addA n s).symm.trans h)
  exact aluCarry_eq _ _

theorem exec_addB_registerB {n : Nibble} (h : exec (.addB n) s = .next t) :
    t.registerB.toNat = (s.registerB.toNat + n.toNat) % 16 := by
  obtain rfl := Host.Outcome.next.inj ((exec_addB n s).symm.trans h)
  exact aluResult_toNat _ _

theorem exec_addB_carryFlag {n : Nibble} (h : exec (.addB n) s = .next t) :
    t.carryFlag = if s.registerB.toNat + n.toNat > 15 then 1 else 0 := by
  obtain rfl := Host.Outcome.next.inj ((exec_addB n s).symm.trans h)
  exact aluCarry_eq _ _

/-! ### `step` as a command, and the host's other moves -/

theorem State.stepCommand_of_halted (h : s.halted = true) : s.stepCommand = (s, false) := by
  simpa [h] using State.stepCommand_of_step (step_of_beginStep_none (State.beginStep_of_halted h))

/-- A machine that is not halted runs the fetched instruction on the advanced state (R112). -/
theorem State.stepCommand_of_not_halted (h : s.halted = false) :
    ∃ t, exec (decodeWord s.fetchWord) s.advancePc = .next t ∧ s.stepCommand = (t, !t.halted) := by
  obtain ⟨t, ht, -⟩ := exec_next_frame (decodeWord s.fetchWord) s.advancePc
  have hstep := step_of_beginStep_some (State.beginStep_of_not_halted h)
  exact ⟨t, ht, State.stepCommand_of_step (hstep.trans ht)⟩

theorem State.stepCommand_snd (s : State) : s.stepCommand.2 = !s.stepCommand.1.halted := by
  cases h : s.halted with
  | true => simp [State.stepCommand_of_halted h, h]
  | false =>
    obtain ⟨t, -, ht⟩ := State.stepCommand_of_not_halted h
    simp [ht]

/-- A step of a machine that is not halted halts it exactly when the fetched word has a halting opcode. -/
theorem State.stepCommand_halts_iff (h : s.halted = false) :
    s.stepCommand.1.halted = true ↔ (decodeWord s.fetchWord).opcode ∈ [0x8#4, 0xA#4, 0xC#4, 0xD#4] := by
  obtain ⟨t, hexec, ht⟩ := State.stepCommand_of_not_halted h
  simpa only [ht, State.advancePc_eq, State.setPc_halted, h, Bool.false_eq_true, or_false] using (exec_frame hexec).halted

@[simp] theorem State.hostOp_reset (s : State) : s.hostOp .reset = (State.reset, .nothing) := rfl
@[simp] theorem State.hostOp_load (s : State) (p : List Byte) : s.hostOp (.load p) = (s.loadOp p, .nothing) := rfl
@[simp] theorem State.hostOp_step (s : State) :
    s.hostOp .step = (s.stepCommand.1, .continues s.stepCommand.2) := rfl
@[simp] theorem State.hostOp_getState (s : State) : s.hostOp .getState = (s, .state s.snapshot) := rfl
@[simp] theorem State.hostOp_setRunning (s : State) (v : Bool) :
    s.hostOp (.setRunning v) = (s.setRunning v, .nothing) := rfl

@[simp] theorem Memory.read_nil (a : Addr) : Memory.read [] a = 0#8 := rfl

/-- `load` leaves 0 where the program does not reach (R33). -/
theorem State.read_loadOp_beyond (s : State) {p : List Byte} {a : Addr} (ha : p.length ≤ a.toNat) :
    (s.loadOp p).memory.read a = 0 := by
  have hread := Memory.read_copyFrom Memory.wf_nil 0 p a
  simpa [State.loadOp_eq, List.getElem?_eq_none ha] using hread

theorem State.halted_loadOp (s : State) (p : List Byte) : (s.loadOp p).halted = false := rfl

/-- From a machine that is not halted, only a step of a halting opcode makes a halted one (R30). -/
theorem State.hostOp_halts_iff (h : s.halted = false) (op : HostOp) :
    (s.hostOp op).1.halted = true ↔
      op = .step ∧ (decodeWord s.fetchWord).opcode ∈ [0x8#4, 0xA#4, 0xC#4, 0xD#4] := by
  cases op with
  | step => simpa only [State.hostOp_step, true_and] using State.stepCommand_halts_iff h
  | reset => simp
  | load p => simp [State.halted_loadOp]
  | getState => simp [h]
  | setRunning v => simp [h]

/-- A halted machine is made to run again by `reset` and `load` only (R30). -/
theorem State.hostOp_unhalts_iff (h : s.halted = true) (op : HostOp) :
    (s.hostOp op).1.halted = false ↔ op = .reset ∨ ∃ q, op = .load q := by
  cases op with
  | step => simp [State.stepCommand_of_halted h, h]
  | reset => simp
  | load p => simp [State.halted_loadOp]
  | getState => simp [h]
  | setRunning v => simp [h]

end

/-! ### The statements of 10_state.md -/

/-- Settles O27 (R22), by the frame of each instruction and by `exec_setA` for the ones that do not read `A`. -/
theorem registerAReadersAndWriters : Obligations.RegisterAReadersAndWriters := fun s _ _ n x =>
  ⟨exec_movAB n s, exec_inA n s, exec_movAImm n s, exec_movBA n s, exec_addA_registerA,
    fun h => (exec_frame h).registerA, fun h hread => exec_setA h hread x⟩

/-- Settles O28 (R23), by the frame of each instruction and by `exec_setB` for the ones that do not read `B`. -/
theorem registerBReadersAndWriters : Obligations.RegisterBReadersAndWriters := fun s _ _ n x =>
  ⟨exec_movBA n s, exec_inB n s, exec_movBImm n s, exec_movAB n s, exec_outB n s, exec_addB_registerB,
    fun h => (exec_frame h).registerB, fun h hread => exec_setB h hread x⟩

/-- Settles O29 (R26, R137): JNC reads the carry, shown at both its values. -/
theorem carryReadersAndWriters : Obligations.CarryReadersAndWriters :=
  ⟨State.reset_carryFlag, fun _ _ _ n x =>
    ⟨exec_addA_carryFlag, exec_addB_carryFlag, fun h => (exec_frame h).carryFlag,
      fun h hread => exec_setCarry h hread x, exec_jncImm_of_no_carry n rfl, exec_jncImm_of_carry n (by simp)⟩⟩

/-- Settles O33 (R30), by what each host operation does to `HALTED` from either of its values. -/
theorem haltedSetAndCleared : Obligations.HaltedSetAndCleared :=
  ⟨State.reset_halted, fun s _ op p _ b =>
    ⟨fun h => State.hostOp_halts_iff h op, fun h => State.hostOp_unhalts_iff h op, State.reset_halted,
      State.halted_loadOp s p, State.stepCommand_of_halted, fun h => exec_setHalted h b, rfl, s.stepCommand_snd⟩⟩

/-- Settles O36 (R33, R202): both operations differ from the reset state in memory at most, and `load` writes only where
the program reaches. -/
theorem resetValues : Obligations.ResetValues := by
  refine ⟨rfl, fun s r p hr => ?_⟩
  have hreset : ∃ m, r = State.reset.setMem m := by
    obtain rfl | rfl := hr
    · exact ⟨[], rfl⟩
    · exact ⟨_, s.loadOp_eq p⟩
  obtain ⟨m, rfl⟩ := hreset
  exact ⟨rfl, rfl, rfl, rfl, rfl, rfl, rfl, fun _ => rfl, fun _ ha => s.read_loadOp_beyond ha⟩

end Sys2Proof.Machine
end

section
/-! PROOFS. The rules the statements of 20_memory.md rest on: what each host operation leaves in memory. -/

namespace Sys2Proof.Machine

section
variable {s t : State}

/-! ### What keeps the memory (R53, R110) -/

/-- No step writes memory: a halted machine keeps its whole state, and memory is in the frame of every instruction. -/
theorem State.stepCommand_memory (s : State) : s.stepCommand.1.memory = s.memory := by
  cases h : s.halted with
  | true => rw [State.stepCommand_of_halted h]
  | false =>
    obtain ⟨t, hexec, ht⟩ := State.stepCommand_of_not_halted h
    rw [ht]
    exact (exec_frame hexec).memory

theorem step_memory (h : step s = .next t) : t.memory = s.memory := by
  simpa [State.stepCommand_of_step h] using s.stepCommand_memory

theorem State.hostOp_memory_of_keepsProgram {op : HostOp} (h : op.keepsProgram = true) :
    (s.hostOp op).1.memory = s.memory := by
  cases op with
  | reset | load => cases h
  | step => exact s.stepCommand_memory
  | getState => rfl
  | setRunning => rfl

/-! ### What `load` leaves in memory (R54) -/

/-- After `load` an address reads as the program's value where the program reaches, else as 0. -/
theorem State.read_loadOp (s : State) (p : List Byte) (a : Addr) :
    (s.loadOp p).memory.read a = p.getD a.toNat 0 :=
  Memory.read_copyFrom Memory.wf_nil 0 p a

/-- The copying loop at entry `i` looks only at the `16 - i` values for which memory has room. -/
theorem Memory.copyFrom_take (m : Memory) (i : Nat) (p : List Byte) :
    m.copyFrom i (p.take (16 - i)) = m.copyFrom i p := by
  induction p generalizing m i with
  | nil => rw [List.take_nil]
  | cons v rest ih =>
    by_cases hi : i < 16
    · have hroom : 16 - i = (16 - (i + 1)) + 1 := by omega
      rw [hroom, List.take_succ_cons]
      simp only [Memory.copyFrom, ih]
    · have hfull : 16 - i = 0 := by omega
      simp [hfull, Memory.copyFrom, hi]

theorem State.loadOp_take (s : State) (p : List Byte) : s.loadOp (p.take 16) = s.loadOp p := by
  rw [State.loadOp_eq, State.loadOp_eq, Memory.copyFrom_take [] 0 p]

end

/-! ### The statements of 20_memory.md -/

/-- Settles O35 (R53, R110), by what each host operation leaves in memory. -/
theorem memoryWrittenByResetAndLoadOnly : Obligations.MemoryWrittenByResetAndLoadOnly := fun s _ _ p a =>
  ⟨step_memory, State.hostOp_memory_of_keepsProgram, Memory.read_nil a, s.read_loadOp p a⟩

/-- Settles O38 (R54): the reads of the copied memory, and the copying loop's indifference to what lies past entry 15. -/
theorem loadCopiesFirstSixteen : Obligations.LoadCopiesFirstSixteen := by
  refine fun s p => ⟨rfl, fun a => ?_, (s.loadOp_take p).symm⟩
  rw [State.read_loadOp]
  split_ifs with h
  · exact List.getD_eq_getElem p 0 h
  · exact List.getD_eq_default p 0 (Nat.le_of_not_lt h)

end Sys2Proof.Machine
end

section
/-! PROOFS. The rules the statements of 30_encoding.md rest on: an opcode that ignores the low nibble has an effect of its
own, a line's instruction text says whether the line is skipped, and a binary text's value in powers of two. -/

namespace Sys2Proof.Machine

/-! ### The ignored nibble (R75) -/

/-- The effect of each opcode that ignores the low nibble; the four that are left halt (R75, R170 to R173). -/
def ignoringEffect (opc : Nibble) (s : State) : State :=
  if opc = 0x1 then s.setA s.registerB
  else if opc = 0x4 then s.setB s.registerA
  else if opc = 0x9 then s.setOut s.registerB
  else s.setHalted true

theorem exec_eq_ignoringEffect {i : Instr} (h : i.opcode ∈ [0x1#4, 0x4#4, 0x8#4, 0x9#4, 0xA#4, 0xC#4, 0xD#4])
    (s : State) : exec i s = .next (ignoringEffect i.opcode s) := by
  cases i with
  | movAB | movBA | outB | und8 | undA | undC | undD => rfl
  | addA | inA | movAImm | addB | inB | movBImm | outImm | jncImm | jmpImm => simp [Instr.opcode] at h

theorem opcode_decodeWord_append (opc low : Nibble) : (decodeWord (opc ++ low)).opcode = opc :=
  (opcode_decodeWord _).trans (opcOf_append opc low)

/-- Settles O19 (R75): what the word decodes to has its opcode, and the effect is the opcode's alone. -/
theorem ignoredNibbleHasNoEffect : Obligations.IgnoredNibbleHasNoEffect := by
  refine fun opc low low' hopc => ⟨⟨_, decode_cons _ _⟩, fun s => ?_⟩
  have effect (n : Nibble) : exec (decodeWord (opc ++ n)) s = .next (ignoringEffect opc s) := by
    have h := exec_eq_ignoringEffect (i := decodeWord (opc ++ n))
    rw [opcode_decodeWord_append] at h
    exact h hopc s
  rw [effect low, effect low']

/-! ### The lines of a text (R81) -/

/-- Lines without LF, each ended by LF, are the lines of the text they make; what follows the last LF is an empty one. -/
theorem splitLines_flatMap {lines : List (List Char)} (h : ∀ l ∈ lines, '\n' ∉ l) :
    splitLines (lines.flatMap fun l => l ++ ['\n']) = lines ++ [[]] := by
  induction lines with
  | nil => rfl
  | cons l rest ih =>
    obtain ⟨hl, hrest⟩ := List.forall_mem_cons.mp h
    rw [List.flatMap_cons, List.append_assoc, List.singleton_append, splitLines_line _ _ hl, ih hrest,
      List.cons_append]

/-! ### Trimming and cutting the comment (R82, R83) -/

section
variable {ws : Char → Bool}

/-- Trimming takes whitespace off both ends and nothing else. -/
theorem exists_eq_append_trim (ws : Char → Bool) (t : List Char) :
    ∃ lead trail, (∀ c ∈ lead, ws c = true) ∧ (∀ c ∈ trail, ws c = true) ∧ t = lead ++ trim ws t ++ trail := by
  refine ⟨t.takeWhile ws, (t.dropWhile ws).rtakeWhile ws, fun _ => List.mem_takeWhile_imp,
    fun _ => List.mem_rtakeWhile_imp, ?_⟩
  calc t = t.takeWhile ws ++ t.dropWhile ws := List.takeWhile_append_dropWhile.symm
    _ = t.takeWhile ws ++ ((t.dropWhile ws).rdropWhile ws ++ (t.dropWhile ws).rtakeWhile ws) := by
      rw [List.rdropWhile_append_rtakeWhile]
    _ = _ := (List.append_assoc _ _ _).symm

theorem filter_not_ws_eq_nil {t : List Char} (h : ∀ c ∈ t, ws c = true) : (t.filter fun c => !ws c) = [] := by
  simpa using h

theorem filter_trim (t : List Char) : ((trim ws t).filter fun c => !ws c) = t.filter fun c => !ws c := by
  obtain ⟨lead, trail, hlead, htrail, ht⟩ := exists_eq_append_trim ws t
  conv_rhs => rw [ht]
  simp only [List.filter_append, filter_not_ws_eq_nil hlead, filter_not_ws_eq_nil htrail, List.nil_append,
    List.append_nil]

/-- A trimmed text does not begin with whitespace. -/
theorem ws_head_of_trim {t u : List Char} {c : Char} (h : trim ws t = c :: u) : ws c = false := by
  have hv : c :: u ++ (t.dropWhile ws).rtakeWhile ws = t.dropWhile ws := h ▸ List.rdropWhile_append_rtakeWhile
  have hhead := List.head?_dropWhile_not ws t
  rw [← hv] at hhead
  simpa using hhead

theorem beginsComment_of_ne {c : Char} (h : c ≠ '/') (t : List Char) : beginsComment (c :: t) = false := by
  simp [beginsComment, h]

/-- Whether a comment begins is said by the first two characters. -/
theorem beginsComment_cons_cons (c d : Char) (t : List Char) :
    beginsComment (c :: d :: t) = (c == '/' && d == '/') := by
  by_cases hc : c = '/'
  · by_cases hd : d = '/' <;> simp [beginsComment, hc, hd]
  · simp [beginsComment_of_ne hc, hc]

/-- Whether a comment begins in `c :: u` does not depend on a text without a slash behind it. -/
theorem beginsComment_append {v : List Char} (hv : '/' ∉ v) (c : Char) (u : List Char) :
    beginsComment (c :: (u ++ v)) = beginsComment (c :: u) := by
  match u, v with
  | [], [] => rfl
  | [], d :: v =>
    have hd : d ≠ '/' := (List.ne_of_not_mem_cons hv).symm
    simp [beginsComment, hd]
  | d :: u, v => rw [List.cons_append, beginsComment_cons_cons, beginsComment_cons_cons]

theorem cutComment_eq_nil {t : List Char} (h : beginsComment t = true) : cutComment t = [] := by
  cases t with
  | nil => rfl
  | cons c u => simp [cutComment, h]

theorem cutComment_cons {c : Char} {t : List Char} (h : beginsComment (c :: t) = false) :
    cutComment (c :: t) = c :: cutComment t := by
  simp [cutComment, h]

/-- The cut passes over a text without a slash. -/
theorem cutComment_append {u : List Char} (h : '/' ∉ u) (v : List Char) :
    cutComment (u ++ v) = u ++ cutComment v := by
  induction u with
  | nil => rfl
  | cons c u ih =>
    have hc : c ≠ '/' := (List.ne_of_not_mem_cons h).symm
    rw [List.cons_append, cutComment_cons (beginsComment_of_ne hc _), ih (List.not_mem_of_not_mem_cons h),
      List.cons_append]

theorem no_slash_of_ws (hslash : ws '/' = false) {t : List Char} (h : ∀ c ∈ t, ws c = true) : '/' ∉ t :=
  fun hmem => by simp [h _ hmem] at hslash

/-- Whitespace at the end of a text is no part of what is left once the comment is cut and whitespace removed. -/
theorem filter_cutComment_append_ws (hslash : ws '/' = false) {v : List Char} (hv : ∀ c ∈ v, ws c = true)
    (u : List Char) :
    ((cutComment (u ++ v)).filter fun c => !ws c) = (cutComment u).filter fun c => !ws c := by
  have hv' := no_slash_of_ws hslash hv
  induction u with
  | nil =>
    rw [List.nil_append, cutComment_of_no_slash hv']
    exact filter_not_ws_eq_nil hv
  | cons c u ih =>
    have hbegins := beginsComment_append hv' c u
    cases hb : beginsComment (c :: u) with
    | true => rw [cutComment_eq_nil hb, List.cons_append, cutComment_eq_nil (hbegins.trans hb)]
    | false =>
      rw [cutComment_cons hb, List.cons_append, cutComment_cons (hbegins.trans hb), List.filter_cons, List.filter_cons,
        ih]

/-! ### The instruction text of a line (R83, R84) -/

/-- The trims of R83 are no loss: the instruction text is the text before the comment with all whitespace removed. -/
theorem instructionText_eq (hslash : ws '/' = false) (line : List Char) :
    instructionText ws line = (cutComment line).filter fun c => !ws c := by
  obtain ⟨lead, trail, hlead, htrail, hline⟩ := exists_eq_append_trim ws line
  calc instructionText ws line = (cutComment (trim ws line)).filter fun c => !ws c := filter_trim _
    _ = (lead ++ cutComment (trim ws line)).filter fun c => !ws c := by
      rw [List.filter_append, filter_not_ws_eq_nil hlead, List.nil_append]
    _ = (cutComment (lead ++ trim ws line)).filter fun c => !ws c := by
      rw [cutComment_append (no_slash_of_ws hslash hlead)]
    _ = (cutComment line).filter fun c => !ws c := by
      rw [← filter_cutComment_append_ws hslash htrail, ← hline]

/-- The skipped lines are those without instruction text (R82). -/
theorem isSkipped_iff (ws : Char → Bool) (line : List Char) :
    isSkipped ws line = true ↔ instructionText ws line = [] := by
  rw [isSkipped, instructionText, filter_trim]
  cases htrim : trim ws line with
  | nil => simp [cutComment]
  | cons c t =>
    cases hb : beginsComment (c :: t) with
    | true => simp [cutComment_eq_nil hb]
    | false => simp [cutComment_cons hb, ws_head_of_trim htrim]

/-! ### One line of the parser (R82, R85, R86) -/

theorem parseLines_skipped {line : List Char} (h : isSkipped ws line = true) (rest : List (List Char)) :
    parseLines ws (line :: rest) = parseLines ws rest := by
  simp [parseLines, h]

theorem parseLines_refused {line : List Char} (hskip : isSkipped ws line = false)
    (hword : isBinaryWord (instructionText ws line) = false) (rest : List (List Char)) :
    parseLines ws (line :: rest) = .parseError (trim ws line) := by
  simp [parseLines, hskip, hword]

theorem parseLines_word {line : List Char} {rest : List (List Char)} {p : List Byte}
    (hskip : isSkipped ws line = false) (hword : isBinaryWord (instructionText ws line) = true)
    (hrest : parseLines ws rest = .words p) :
    parseLines ws (line :: rest) = .words (BitVec.ofNat 8 (binaryValue (instructionText ws line)) :: p) := by
  simp [parseLines, hskip, hword, hrest]

theorem isBinaryWord_iff (t : List Char) :
    isBinaryWord t = true ↔ t.length = 8 ∧ ∀ c ∈ t, c = '0' ∨ c = '1' := by
  simp [isBinaryWord]

/-- A text with no whitespace and no slash is its own instruction text. -/
theorem instructionText_of_bare {t : List Char} (hws : ∀ c ∈ t, ws c = false) (hslash : '/' ∉ t) :
    instructionText ws t = t := by
  rw [instructionText, trim_of_no_ws hws, cutComment_of_no_slash hslash, trim_of_no_ws hws]
  simpa using hws

theorem not_mem_of_isBinaryWord {t : List Char} (h : isBinaryWord t = true) {c : Char} (h0 : c ≠ '0') (h1 : c ≠ '1') :
    c ∉ t := fun hmem => by
  obtain ⟨-, hdigits⟩ := (isBinaryWord_iff t).mp h
  exact (hdigits c hmem).elim h0 h1

/-- Lines of 8 binary digits, with an empty last line, parse to their values (R87). -/
theorem parseLines_binary (h0 : ws '0' = false) (h1 : ws '1' = false) {lines : List (List Char)}
    (h : ∀ l ∈ lines, isBinaryWord l = true) :
    parseLines ws (lines ++ [[]]) = .words (lines.map fun l => BitVec.ofNat 8 (binaryValue l)) := by
  induction lines with
  | nil => rfl
  | cons l rest ih =>
    obtain ⟨hl, hrest⟩ := List.forall_mem_cons.mp h
    obtain ⟨hlength, hdigits⟩ := (isBinaryWord_iff l).mp hl
    have hws : ∀ c ∈ l, ws c = false := fun c hc => by rcases hdigits c hc with rfl | rfl <;> assumption
    have htext : instructionText ws l = l :=
      instructionText_of_bare hws (not_mem_of_isBinaryWord hl (by decide) (by decide))
    have hskip : isSkipped ws l = false := by
      rw [← Bool.not_eq_true, isSkipped_iff, htext]
      rintro rfl
      cases hlength
    have hline := parseLines_word hskip (htext.symm ▸ hl) (ih hrest)
    rwa [htext] at hline

end

/-! ### The value of a binary text (R86) -/

theorem foldl_binaryDigits (v : Nat) (t : List Char) :
    t.foldl (fun v c => 2 * v + if c = '1' then 1 else 0) v = v * 2 ^ t.length + binaryValue t := by
  induction t generalizing v with
  | nil => simp [binaryValue]
  | cons c t ih =>
    rw [binaryValue, List.foldl_cons, List.foldl_cons, ih, ih, List.length_cons]
    ring

/-- The first digit is the most significant. -/
theorem binaryValue_cons (c : Char) (t : List Char) :
    binaryValue (c :: t) = (if c = '1' then 1 else 0) * 2 ^ t.length + binaryValue t := by
  rw [binaryValue, List.foldl_cons, foldl_binaryDigits, Nat.mul_zero, Nat.zero_add]

theorem binaryValue_lt (t : List Char) : binaryValue t < 2 ^ t.length := by
  induction t with
  | nil => decide
  | cons c t ih =>
    rw [binaryValue_cons, List.length_cons, Nat.pow_succ]
    split_ifs <;> omega

/-- The value as the sum of its digits' weights: digit `k` of `n` weighs `2 ^ (n - 1 - k)`. -/
theorem binaryValue_eq_sum (t : List Char) :
    binaryValue t =
      ((List.range t.length).map fun k => (if t.getD k '0' = '1' then 1 else 0) * 2 ^ (t.length - 1 - k)).sum := by
  induction t with
  | nil => rfl
  | cons c t ih =>
    rw [binaryValue_cons, List.length_cons, List.range_succ_eq_map, List.map_cons, List.sum_cons, List.map_map, ih]
    congr 3
    funext k
    have hweight : t.length + 1 - 1 - (k + 1) = t.length - 1 - k := by omega
    simp only [Function.comp_apply, Nat.succ_eq_add_one, hweight, List.getD_cons_succ]

/-! ### The statements about program text -/

/-- Settles O55 (R86, R91): each line is its own instruction text, and a value of 8 digits fits the byte `load` stores. -/
theorem parseThenLoadReproducesTheBytes : Obligations.ParseThenLoadReproducesTheBytes := by
  intro ws lines h0 h1 hlines value
  have hvalue : ∀ l ∈ lines, value l = binaryValue l := fun l hl => by
    rw [binaryValue_eq_sum, (hlines l hl).1]
  have hword : ∀ l ∈ lines, isBinaryWord l = true := fun l hl => (isBinaryWord_iff l).mpr (hlines l hl)
  have hLF : ∀ l ∈ lines, '\n' ∉ l := fun l hl => not_mem_of_isBinaryWord (hword l hl) (by decide) (by decide)
  constructor
  · rw [parseProgram, splitLines_flatMap hLF, parseLines_binary h0 h1 hword]
    exact congrArg _ (List.map_congr_left fun l hl => by rw [hvalue l hl])
  · intro s a
    rw [State.read_loadOp]
    split_ifs with ha
    · have hmem : lines[a.toNat] ∈ lines := List.getElem_mem ha
      have hlt : value lines[a.toNat] < 2 ^ 8 := by
        rw [hvalue _ hmem, ← (hlines _ hmem).1]
        exact binaryValue_lt _
      rw [List.getD_eq_getElem _ 0 (by simpa using ha), List.getElem_map, BitVec.toNat_ofNat, Nat.mod_eq_of_lt hlt]
    · rw [List.getD_eq_default _ 0 (by simpa using ha)]
      rfl

/-- A comment, or nothing, is cut whole after a text without a slash. -/
theorem cutComment_append_comment {code tail : List Char} (hcode : '/' ∉ code)
    (htail : tail = [] ∨ ∃ r, tail = '/' :: '/' :: r) : cutComment (code ++ tail) = code := by
  have hcut : cutComment tail = [] := by
    obtain rfl | ⟨r, rfl⟩ := htail
    · rfl
    · exact cutComment_eq_nil rfl
  rw [cutComment_append hcode, hcut, List.append_nil]

/-- Settles O56 (R92): the line's instruction text is `code` without its whitespace, so it is neither empty, which would
skip the line, nor a binary word. -/
theorem parseRejectsBadLines : Obligations.ParseRejectsBadLines := by
  intro ws code tail hslash hLF hcode htail hne hbad
  have htext : instructionText ws (code ++ tail) = code.filter fun c => !ws c := by
    rw [instructionText_eq hslash, cutComment_append_comment hcode htail]
  have hskip : isSkipped ws (code ++ tail) = false := by
    rwa [← Bool.not_eq_true, isSkipped_iff, htext]
  have hword : isBinaryWord (instructionText ws (code ++ tail)) = false := by
    rw [← Bool.not_eq_true, isBinaryWord_iff, htext]
    rintro ⟨hlength, hdigits⟩
    obtain hlength' | ⟨c, hc, hc0, hc1⟩ := hbad
    · exact hlength' hlength
    · exact (hdigits c hc).elim hc0 hc1
  exact ⟨_, by rw [parseProgram, splitLines_single _ hLF, parseLines_refused hskip hword]⟩

/-- Settles O58 (R82): nothing but whitespace stands before the comment, so the line has no instruction text. -/
theorem skippedLinesGiveNoWord : Obligations.SkippedLinesGiveNoWord := by
  intro ws lead text rest hslash hLF hlead htext
  have hskip : isSkipped ws (lead ++ text) = true := by
    rw [isSkipped_iff, instructionText_eq hslash, cutComment_append_comment (no_slash_of_ws hslash hlead) htext]
    exact filter_not_ws_eq_nil hlead
  rw [parseProgram, splitLines_line _ _ hLF, parseLines_skipped hskip, parseProgram]

end Sys2Proof.Machine
end

section
/-! PROOFS. The rules the statements of 40_step.md rest on: every step answers a next state, and `stepCommand` and
`StepsTo` are that step. -/

namespace Sys2Proof.Machine

section
variable {s t : State}

/-! ### The step, its command and its relation (R101, R107, R113) -/

theorem step_of_halted (h : s.halted = true) : step s = .next s :=
  step_of_beginStep_none (State.beginStep_of_halted h)

/-- A step never faults and never refuses: a halted machine stays as it is, and every instruction has a next state. -/
theorem exists_step_eq_next (s : State) : ∃ t, step s = .next t := by
  cases h : s.halted with
  | true => exact ⟨s, step_of_halted h⟩
  | false =>
    obtain ⟨t, hexec, -⟩ := exec_next_frame (decodeWord s.fetchWord) s.advancePc
    exact ⟨t, (step_of_beginStep_some (State.beginStep_of_not_halted h)).trans hexec⟩

theorem step_eq_next_stepCommand (s : State) : step s = .next s.stepCommand.1 := by
  obtain ⟨t, ht⟩ := exists_step_eq_next s
  rw [State.stepCommand_of_step ht, ht]

theorem stepsTo_iff {b : Bool} : StepsTo s b t ↔ step s = .next t ∧ b = !t.halted := by
  constructor
  · intro (h : s.stepCommand = (t, b))
    have hstep := step_eq_next_stepCommand s
    have hcontinues := s.stepCommand_snd
    rw [h] at hstep hcontinues
    exact ⟨hstep, hcontinues⟩
  · rintro ⟨hstep, rfl⟩
    exact State.stepCommand_of_step hstep

theorem State.stepCommand_snd_eq_false_iff (s : State) :
    s.stepCommand.2 = false ↔ s.stepCommand.1.halted = true := by
  rw [s.stepCommand_snd, Bool.not_eq_false']

end

/-! ### The statements of 40_step.md -/

/-- Settles O21 (R101): a step looks at `HALTED` before anything else, so the memory put in has no part in it. -/
theorem haltedStepChangesNothing : Obligations.HaltedStepChangesNothing := fun _ _ h =>
  ⟨step_of_halted h, State.stepCommand_of_halted h, State.stepCommand_of_halted h⟩

/-- Settles O22 (R107), by the value of `HALTED` at entry: a machine that was halted stays so. -/
theorem stepReturnsNotHalted : Obligations.StepReturnsNotHalted := by
  refine fun s => ⟨s.stepCommand_snd, ?_⟩
  cases h : s.halted with
  | true => simp [State.stepCommand_of_halted h]
  | false => simpa using s.stepCommand_snd_eq_false_iff

/-- Settles O23 (R113): no instruction faults or refuses, so neither does a step, and its function and its relation hold
the whole of its answer. -/
theorem stepIsTotal : Obligations.StepIsTotal := by
  refine ⟨fun i s => ?_, step_eq_next_stepCommand, fun _ _ _ => stepsTo_iff⟩
  obtain ⟨t, hexec, -⟩ := exec_next_frame i s
  exact ⟨t, hexec⟩

end Sys2Proof.Machine
end

section
/-! PROOFS. The rules the statements of 41_alu_add.md rest on: the additions in numbers, the two values of the carry, and
what a step does once the word it fetches is known. -/

namespace Sys2Proof.Machine

/-! ### The adder's outputs as numbers (R120, R123) -/

theorem aluResult_eq_ofNat (x y : Nibble) : aluResult x y = BitVec.ofNat 4 ((x.toNat + y.toNat) % 16) := by
  rw [← aluResult_toNat, BitVec.ofNat_toNat, BitVec.setWidth_eq]

/-- A carry written from a sum is 1 above 15 and 0 up to 15: no third case, and no part for the carry before it. -/
theorem carry_iff_of_eq_ite {c : Bit} {sum : Nat} (h : c = if sum > 15 then 1 else 0) :
    (c = 1 ↔ sum > 15) ∧ (c = 0 ↔ sum ≤ 15) := by
  by_cases hsum : sum > 15
  · simp [h, hsum]
  · simp [h, hsum, Nat.le_of_not_gt hsum]

/-! ### A step whose fetched word is known (R102 to R107) -/

theorem decodeWord_encodeWord (i : Instr) : decodeWord (encodeWord i) = i := by
  cases i with
  | _ n => revert n; decide

/-- A machine that fetches the word of `i` makes the effect of `i` on the advanced state, and goes on when that is not
halted. -/
theorem State.stepCommand_of_encodeWord {s t : State} (i : Instr) (hs : s.halted = false)
    (hword : s.memory.read s.programCounter = encodeWord i) (hexec : exec i s.advancePc = .next t)
    (ht : t.halted = false) : s.stepCommand = (t, true) := by
  have hfetch : decodeWord s.fetchWord = i := by
    rw [State.fetchWord, hword, decodeWord_encodeWord]
  have hstep : step s = .next t := by
    rw [step_of_beginStep_some (State.beginStep_of_not_halted hs), hfetch, hexec]
  rw [State.stepCommand_of_step hstep, ht, Bool.not_false]

/-! ### The additions as whole next states (R121, R122) -/

theorem exec_addA_eq_sum (n : Nibble) (s : State) :
    exec (.addA n) s = .next { s with
      registerA := BitVec.ofNat 4 ((s.registerA.toNat + n.toNat) % 16)
      carryFlag := if s.registerA.toNat + n.toNat > 15 then 1 else 0 } := by
  rw [exec_addA, aluResult_eq_ofNat, aluCarry_eq]
  rfl

theorem exec_addB_eq_sum (n : Nibble) (s : State) :
    exec (.addB n) s = .next { s with
      registerB := BitVec.ofNat 4 ((s.registerB.toNat + n.toNat) % 16)
      carryFlag := if s.registerB.toNat + n.toNat > 15 then 1 else 0 } := by
  rw [exec_addB, aluResult_eq_ofNat, aluCarry_eq]
  rfl

/-- An instruction that is no addition has the opcode of none. -/
theorem opcode_notMem_of_ne_add {i : Instr} (h : ∀ m, i ≠ .addA m ∧ i ≠ .addB m) : i.opcode ∉ [0x0#4, 0x5#4] := by
  cases i with
  | addA m => exact absurd rfl (h m).1
  | addB m => exact absurd rfl (h m).2
  | _ => simp [Instr.opcode]

/-! ### The statements of 41_alu_add.md -/

/-- Settles O1 (R121), by the addition as a whole next state, taken on `s` and on the advanced state of the step. -/
theorem addAImmWritesSumAndCarry : Obligations.AddAImmWritesSumAndCarry := fun imm s =>
  ⟨decodeWord_encodeWord (.addA imm), exec_addA_eq_sum imm s, fun hs hword =>
    State.stepCommand_of_encodeWord (.addA imm) hs hword (exec_addA_eq_sum imm s.advancePc) hs⟩

/-- Settles O2 (R122), by the addition as a whole next state, taken on `s` and on the advanced state of the step. -/
theorem addBImmWritesSumAndCarry : Obligations.AddBImmWritesSumAndCarry := fun imm s =>
  ⟨decodeWord_encodeWord (.addB imm), exec_addB_eq_sum imm s, fun hs hword =>
    State.stepCommand_of_encodeWord (.addB imm) hs hword (exec_addB_eq_sum imm s.advancePc) hs⟩

/-- Settles O30 (R123, R125): an addition writes the carry from its own sum, and the carry is in the frame of every
other instruction. -/
theorem additionLaw : Obligations.AdditionLaw := fun _ _ _ _ =>
  ⟨fun h => ⟨exec_addA_registerA h, carry_iff_of_eq_ite (exec_addA_carryFlag h)⟩,
    fun h => ⟨exec_addB_registerB h, carry_iff_of_eq_ite (exec_addB_carryFlag h)⟩,
    fun h hother => (exec_frame h).carryFlag (opcode_notMem_of_ne_add hother)⟩

end Sys2Proof.Machine
end

section
/-! PROOFS. The statements of 42_transfer.md: one argument for every instruction whose effect leaves `HALTED` as it was,
used with the rule `exec_mov…` of each move. -/

namespace Sys2Proof.Machine

/-! ### An instruction that leaves `HALTED` as it was, from its word to its step -/

/-- The word of `i` decodes to `i`, `i` has the effect `f`, and a step that fetches the word has the effect `f` on the
advanced state (R112) and answers true (R107). -/
theorem decode_exec_stepCommand_of_effect (i : Instr) {f : State → State} (hexec : ∀ s, exec i s = .next (f s))
    (hhalted : ∀ s, (f s).halted = s.halted) (s : State) :
    decodeWord (encodeWord i) = i ∧ exec i s = .next (f s) ∧
    (s.halted = false → s.memory.read s.programCounter = encodeWord i → s.stepCommand = (f s.advancePc, true)) := by
  refine ⟨decodeWord_encodeWord i, hexec s, fun hs hword => ?_⟩
  have hgoes : (f s.advancePc).halted = false := (hhalted s.advancePc).trans hs
  exact State.stepCommand_of_encodeWord i hs hword (hexec s.advancePc) hgoes

/-! ### The statements of 42_transfer.md -/

/-- Settles O3 (R130), with the effect of MOV A, B for `f`. -/
theorem movABCopiesBToA : Obligations.MovABCopiesBToA := fun low =>
  decode_exec_stepCommand_of_effect (.movAB low) (exec_movAB low) fun _ => rfl

/-- Settles O5 (R132), with the effect of MOV A, imm for `f`. -/
theorem movAImmLoadsImmediate : Obligations.MovAImmLoadsImmediate := fun imm =>
  decode_exec_stepCommand_of_effect (.movAImm imm) (exec_movAImm imm) fun _ => rfl

/-- Settles O6 (R133), with the effect of MOV B, A for `f`. -/
theorem movBACopiesAToB : Obligations.MovBACopiesAToB := fun low =>
  decode_exec_stepCommand_of_effect (.movBA low) (exec_movBA low) fun _ => rfl

/-- Settles O8 (R135), with the effect of MOV B, imm for `f`. -/
theorem movBImmLoadsImmediate : Obligations.MovBImmLoadsImmediate := fun imm =>
  decode_exec_stepCommand_of_effect (.movBImm imm) (exec_movBImm imm) fun _ => rfl

end Sys2Proof.Machine
end

section
/-! PROOFS. The statements of 43_output.md: an output instruction leaves `HALTED` as it was, so its word, its effect and
its step come from `decode_exec_stepCommand_of_effect`. -/

namespace Sys2Proof.Machine

/-- Settles O9 (R150), with the effect of OUT B for `f`: `B` is read after the advance, which leaves it as it was. -/
theorem outBCopiesBToOutput : Obligations.OutBCopiesBToOutput := fun low =>
  decode_exec_stepCommand_of_effect (.outB low) (exec_outB low) fun _ => rfl

/-- Settles O10 (R151), with the effect of OUT imm for `f`: the value comes from the word, no register is read. -/
theorem outImmLoadsOutput : Obligations.OutImmLoadsOutput := fun imm =>
  decode_exec_stepCommand_of_effect (.outImm imm) (exec_outImm imm) fun _ => rfl

end Sys2Proof.Machine
end

section
/-! PROOFS. The statements of 44_control.md: a jump leaves `HALTED` as it was, so its word, its effect and its step come
from `decode_exec_stepCommand_of_effect`. -/

namespace Sys2Proof.Machine

/-- JNC as one next state (R160): whichever value the carry has, only `PC` can change. -/
theorem exec_jncImm_eq_ite_programCounter (n : Nibble) (s : State) :
    exec (.jncImm n) s =
      .next { s with programCounter := if s.carryFlag = 0#1 then n else s.programCounter } := by
  by_cases hcarry : s.carryFlag = 0#1
  · rw [exec_jncImm_of_no_carry n hcarry, if_pos hcarry]
    rfl
  · rw [exec_jncImm_of_carry n hcarry, if_neg hcarry]

/-- Settles O11 (R160, R164), with the effect of JNC imm for `f`: on the advanced state, the `PC` that a carry keeps is
`PC + 1`. -/
theorem jncImmJumpsIffNoCarry : Obligations.JncImmJumpsIffNoCarry := fun imm =>
  decode_exec_stepCommand_of_effect (.jncImm imm) (exec_jncImm_eq_ite_programCounter imm) fun _ => rfl

/-- Settles O12 (R161), with the effect of JMP imm for `f`: the jump overwrites the advanced `PC` (R162). -/
theorem jmpImmJumps : Obligations.JmpImmJumps := fun imm =>
  decode_exec_stepCommand_of_effect (.jmpImm imm) (exec_jmpImm imm) fun _ => rfl

end Sys2Proof.Machine
end

section
/-! PROOFS. The statements of 30_encoding.md about words: the fields of a word as numbers, and that an instruction and
its word stand for each other. -/

namespace Sys2Proof.Machine

/-! ### The fields of a decoded word, as numbers (R71) -/

theorem opcode_decodeWord_toNat (w : Byte) : (decodeWord w).opcode.toNat = w.toNat / 16 := by
  have hw := w.isLt
  rw [opcode_decodeWord, opcOf, BitVec.extractLsb'_toNat, Nat.shiftRight_eq_div_pow]
  omega

theorem lowNibble_decodeWord_toNat (w : Byte) : (decodeWord w).lowNibble.toNat = w.toNat % 16 := by
  rw [lowNibble_decodeWord, immOf, BitVec.extractLsb'_toNat, Nat.shiftRight_zero]

/-! ### Words and instructions (R70, R74) -/

theorem encodeWord_decodeWord (w : Byte) : encodeWord (decodeWord w) = w := by
  rw [encodeWord, opcode_decodeWord, lowNibble_decodeWord, append_fields]

/-- One row of the opcode table selects the word of an instruction: the one with its mnemonic. -/
theorem opcodeTable_filter_encodeWord (i : Instr) :
    (opcodeTable.filter fun r => encodeWord i &&& r.mask = r.pattern).map OpcodeRow.mnemonic = [i.mnemonic] := by
  cases i with
  | _ n => revert n; decide

/-! ### The statements about words -/

/-- Settles O17 (R70, R74, R78): an instruction is one word, and that word decodes to it. -/
theorem decodeEncodeRoundTrip : Obligations.DecodeEncodeRoundTrip := by
  intro i rest _
  rw [encode, List.singleton_append, decode_cons, decodeWord_encodeWord]

/-- Settles O18 (R70, R71): the decoder keeps both fields of the word, and the encoder puts them back. -/
theorem encodeDecodeRoundTrip : Obligations.EncodeDecodeRoundTrip := encodeWord_decodeWord

/-- Settles O15 (R74), by evaluating the decoder on the sixteen words. -/
theorem writtenOutWordsDecode : Obligations.WrittenOutWordsDecode := by
  unfold Obligations.WrittenOutWordsDecode
  decide

/-- Settles O16 (R71, R74), by the table's rows for the word of the decoded instruction. -/
theorem decoderFollowsOpcodeTable : Obligations.DecoderFollowsOpcodeTable := by
  refine fun w => ⟨?_, lowNibble_decodeWord_toNat w, opcode_decodeWord_toNat w⟩
  have hrows := opcodeTable_filter_encodeWord (decodeWord w)
  rwa [encodeWord_decodeWord] at hrows

end Sys2Proof.Machine
end

section
/-! PROOFS. The statements about single instructions that are left of 41_alu_add.md, 42_transfer.md and 45_halt.md:
IN, and the opcodes that halt. -/

namespace Sys2Proof.Machine

/-! ### The adder and IN -/

/-- Settles O31 (R120), by the two outputs of the adder. -/
theorem adderResultAndCarryOut : Obligations.AdderResultAndCarryOut := fun x y =>
  ⟨aluResult_toNat x y, aluCarry_eq x y⟩

/-- Settles O4 (R131), with the effect of IN A for `f`: the value comes from the word, there is no port to read. -/
theorem inALoadsImmediate : Obligations.InALoadsImmediate := fun imm =>
  decode_exec_stepCommand_of_effect (.inA imm) (exec_inA imm) fun _ => rfl

/-- Settles O7 (R134), with the effect of IN B for `f`: the value comes from the word, there is no port to read. -/
theorem inBLoadsImmediate : Obligations.InBLoadsImmediate := fun imm =>
  decode_exec_stepCommand_of_effect (.inB imm) (exec_inB imm) fun _ => rfl

/-- Settles O14 (R136): both instructions of a pair write the immediate to the same register. -/
theorem inActsAsMovImmediate : Obligations.InActsAsMovImmediate := fun n s =>
  ⟨(exec_inA n s).trans (exec_movAImm n s).symm, (exec_inB n s).trans (exec_movBImm n s).symm⟩

/-! ### The opcodes that halt (R170 to R173) -/

section
variable {s t : State} {i : Instr}

theorem exec_of_halting (h : i.opcode ∈ [0x8#4, 0xA#4, 0xC#4, 0xD#4]) (s : State) :
    exec i s = .next (s.setHalted true) := by
  cases i with
  | und8 | undA | undC | undD => rfl
  | _ => simp [Instr.opcode] at h

theorem step_of_not_halted (h : s.halted = false) : step s = exec (decodeWord s.fetchWord) s.advancePc :=
  step_of_beginStep_some (State.beginStep_of_not_halted h)

/-- A step that fetches a halting word sets `HALTED` on the advanced state and answers false. -/
theorem State.stepCommand_of_halting (hs : s.halted = false)
    (hword : (decodeWord s.fetchWord).opcode ∈ [0x8#4, 0xA#4, 0xC#4, 0xD#4]) :
    s.stepCommand = (s.advancePc.setHalted true, false) :=
  State.stepCommand_of_step ((step_of_not_halted hs).trans (exec_of_halting hword _))

/-- The four halting words with low nibble `low` decode to a halting opcode. -/
theorem opcode_mem_halting_of_word {w : Byte} {low : Nibble}
    (h : w ∈ [0x8#4 ++ low, 0xA#4 ++ low, 0xC#4 ++ low, 0xD#4 ++ low]) :
    (decodeWord w).opcode ∈ [0x8#4, 0xA#4, 0xC#4, 0xD#4] := by
  obtain ⟨opc, hopc, rfl⟩ : ∃ opc ∈ [0x8#4, 0xA#4, 0xC#4, 0xD#4], opc ++ low = w := List.mem_map.mp h
  rwa [opcode_decodeWord_append]

end

/-- Settles O13 (R170 to R173), by the word of each halting opcode, its effect, and the step that fetches one of the
words. -/
theorem haltingOpcodesSetHaltedOnly : Obligations.HaltingOpcodesSetHaltedOnly := fun low s =>
  ⟨⟨decodeWord_encodeWord (.und8 low), decodeWord_encodeWord (.undA low), decodeWord_encodeWord (.undC low),
      decodeWord_encodeWord (.undD low)⟩,
    ⟨exec_und8 low s, exec_undA low s, exec_undC low s, exec_undD low s⟩,
    fun hs hword => State.stepCommand_of_halting hs (opcode_mem_halting_of_word hword)⟩

end Sys2Proof.Machine
end

section
/-! PROOFS. What a step does as a whole (40_step.md): the next program counter, the frame of an instruction, the
elements it does not read, and the step as the pseudocode of R108 on plain numbers. -/

namespace Sys2Proof.Machine

section
variable {s t : State} {i : Instr}

/-! ### The next program counter (R112, R160 to R162) -/

/-- Only JMP and a taken JNC write `PC`. -/
theorem exec_programCounter (h : exec i s = .next t) :
    t.programCounter =
      if i.opcode = 0xF#4 ∨ (i.opcode = 0xE#4 ∧ s.carryFlag = 0#1) then i.lowNibble else s.programCounter := by
  cases i with
  | jmpImm n => obtain rfl := Host.Outcome.next.inj h; rfl
  | jncImm n =>
    rw [exec_jncImm_eq_ite_programCounter, Host.Outcome.next.injEq] at h
    simp [← h, Instr.opcode, Instr.lowNibble]
  | _ => obtain rfl := Host.Outcome.next.inj h; rfl

/-! ### What an instruction does not read -/

/-- No instruction reads `OUT`. -/
theorem exec_setOut (h : exec i s = .next t) (x : Nibble) :
    exec i (s.setOut x) = .next (t.setOut (if i.opcode ∈ [0x9#4, 0xB#4] then t.output else x)) := by
  cases i with
  | jncImm => exact exec_jncImm_update (·.setOut x) rfl rfl h
  | _ => obtain rfl := Host.Outcome.next.inj h; rfl

/-- No instruction reads or writes `RUNNING`. -/
theorem exec_setRunning (h : exec i s = .next t) (b : Bool) : exec i (s.setRunning b) = .next (t.setRunning b) := by
  cases i with
  | jncImm => exact exec_jncImm_update (·.setRunning b) rfl rfl h
  | _ => obtain rfl := Host.Outcome.next.inj h; rfl

/-- A step commutes with a write of `RUNNING` (R111). -/
theorem State.stepCommand_setRunning (s : State) (b : Bool) :
    (s.setRunning b).stepCommand = (s.stepCommand.1.setRunning b, s.stepCommand.2) := by
  cases h : s.halted with
  | true => rw [State.stepCommand_of_halted h, State.stepCommand_of_halted (s := s.setRunning b) h]
  | false =>
    obtain ⟨t, hexec, ht⟩ := State.stepCommand_of_not_halted h
    have hstep : step (s.setRunning b) = .next (t.setRunning b) :=
      (step_of_not_halted (s := s.setRunning b) h).trans (exec_setRunning hexec b)
    rw [ht, State.stepCommand_of_step hstep, State.setRunning_halted]

theorem State.stepCommand_running (s : State) : s.stepCommand.1.running = s.running := by
  cases h : s.halted with
  | true => rw [State.stepCommand_of_halted h]
  | false =>
    obtain ⟨t, hexec, ht⟩ := State.stepCommand_of_not_halted h
    rw [ht]
    exact (exec_frame hexec).running

/-! ### The pseudocode on plain numbers (R108) -/

theorem Plain.step_of_halted {p : Plain} (h : p.HALTED = true) : p.step = (p, false) := by
  simp [Plain.step, h]

theorem Plain.step_of_not_halted {p q : Plain} (h : p.HALTED = false)
    (hq : (Plain.dispatch { p with PC := (p.PC + 1) % 16 }
      (p.MEM.getD p.PC 0 / 16) (p.MEM.getD p.PC 0 % 16)).mask = q) :
    p.step = (q, !q.HALTED) := by
  rw [← hq, Plain.step, if_neg (by simp [h])]

/-- The word the pseudocode fetches is the fetched word. -/
theorem State.plain_fetch (s : State) : s.plain.MEM.getD s.plain.PC 0 = s.fetchWord.toNat := by
  have hgetD : (s.memory.entries.map BitVec.toNat).getD s.programCounter.toNat (0#8).toNat = s.fetchWord.toNat := by
    rw [List.getD_map, Memory.entries_getD, State.fetchWord]
  exact hgetD

/-- The advance of `PC`, on 4 bits and on numbers (R103). -/
theorem State.plain_advancePc (s : State) : s.advancePc.plain = { s.plain with PC := (s.plain.PC + 1) % 16 } := by
  simp [State.plain]

/-- The mask of R106 changes nothing of a state whose registers have their widths. -/
theorem State.mask_plain (s : State) : s.plain.mask = s.plain := by
  have hmask (x : Nibble) : x.toNat &&& 0xF = x.toNat := by
    rw [Nat.and_two_pow_sub_one_eq_mod _ 4, Nat.mod_eq_of_lt x.isLt]
  simp [Plain.mask, State.plain, hmask]

theorem aluCarry_toNat (x y : Nibble) : (aluCarry x y).toNat = if x.toNat + y.toNat > 15 then 1 else 0 := by
  rw [aluCarry_eq, apply_ite BitVec.toNat]
  rfl

/-- Each arm of the pseudocode is the effect of the instruction with that opcode (R105). -/
theorem Plain.dispatch_of_exec (h : exec i s = .next t) :
    s.plain.dispatch i.opcode.toNat i.lowNibble.toNat = t.plain := by
  cases i with
  | addA n =>
    obtain rfl := Host.Outcome.next.inj ((exec_addA n s).symm.trans h)
    simp [Plain.dispatch, State.plain, Instr.opcode, Instr.lowNibble, aluResult_toNat, aluCarry_toNat]
  | addB n =>
    obtain rfl := Host.Outcome.next.inj ((exec_addB n s).symm.trans h)
    simp [Plain.dispatch, State.plain, Instr.opcode, Instr.lowNibble, aluResult_toNat, aluCarry_toNat]
  | jncImm n =>
    obtain rfl := Host.Outcome.next.inj ((exec_jncImm n s).symm.trans h)
    have hcarry : s.plain.C = 0 ↔ s.carryFlag = 0#1 := BitVec.toNat_inj (y := 0#1)
    rw [apply_ite State.plain]
    exact if_congr hcarry rfl rfl
  | _ => obtain rfl := Host.Outcome.next.inj h; rfl

/-- A step of a machine that is not halted is the pseudocode's fetch, advance, dispatch and mask. -/
theorem State.plain_step_of_exec (hs : s.halted = false)
    (hexec : exec (decodeWord s.fetchWord) s.advancePc = .next t) : s.plain.step = (t.plain, !t.halted) := by
  refine Plain.step_of_not_halted hs ?_
  rw [State.plain_fetch, ← State.plain_advancePc, ← opcode_decodeWord_toNat, ← lowNibble_decodeWord_toNat,
    Plain.dispatch_of_exec hexec, State.mask_plain]

end

/-! ### The statements of 40_step.md and 10_state.md -/

/-- Settles O24 (R108), by the value of `HALTED`: both steps do nothing when halted, else both run the fetched word. -/
theorem stepRefinesPseudocode : Obligations.StepRefinesPseudocode := by
  intro s
  cases h : s.halted with
  | true => rw [State.stepCommand_of_halted h, Plain.step_of_halted (p := s.plain) h]
  | false =>
    obtain ⟨t, hexec, ht⟩ := State.stepCommand_of_not_halted h
    rw [ht, State.plain_step_of_exec h hexec]

/-- Settles O20 (R103, R112): the fetched word is the one byte that was decoded. -/
theorem stepRunsDecodedInstruction : Obligations.StepRunsDecodedInstruction := by
  intro s i hs hdecode _
  have hfetch : decodeWord s.fetchWord = i := by
    simpa [State.fetchWord] using hdecode
  rw [step_of_not_halted hs, hfetch]
  rfl

/-- Settles O25 (R25, R103, R160, R161), by the `PC` an instruction writes, read on the fetched word's numbers. -/
theorem nextProgramCounter : Obligations.NextProgramCounter := by
  intro s t hs hstep w
  rw [step_of_not_halted hs] at hstep
  have hopc (opc : Nibble) : (decodeWord s.fetchWord).opcode = opc ↔ w / 16 = opc.toNat := by
    rw [← BitVec.toNat_inj, opcode_decodeWord_toNat]
    rfl
  rw [exec_programCounter hstep, apply_ite BitVec.toNat, lowNibble_decodeWord_toNat]
  exact if_congr (or_congr (hopc 0xF) (and_congr_left' (hopc 0xE))) rfl (BitVec.toNat_add _ _)

/-- Settles O26 (R73), by the frame of the instruction. -/
theorem instructionFrame : Obligations.InstructionFrame := by
  intro i s t h
  obtain ⟨hA, hB, hC, hout, hpc, hmem, hrunning, hhalted⟩ := exec_frame h
  refine ⟨hA, hB, hout, hC, hpc, fun hopc => ?_, hrunning, fun a => by rw [hmem]⟩
  rw [Bool.eq_iff_iff, hhalted, or_iff_right hopc]

/-- Settles O32 (R28, R152), by the frame of each instruction and by `exec_setOut`. -/
theorem outputWrittenByOutOnly : Obligations.OutputWrittenByOutOnly := fun s _ _ n x =>
  ⟨exec_outB n s, exec_outImm n s, fun h => (exec_frame h).output, fun h => exec_setOut h x, s.outPort_eq, rfl⟩

/-- Settles O34 (R31, R111), by the step's commuting with a write of `RUNNING`. -/
theorem runningHasNoEffect : Obligations.RunningHasNoEffect := fun s b =>
  ⟨s.stepCommand_setRunning b, s.stepCommand_running, rfl, State.reset_running⟩

end Sys2Proof.Machine
end

section
/-! PROOFS. The statements left of 20_memory.md and of 10_state.md's snapshot: canonical memories that read alike are
the same list, and what `reset`, `load` and `getState` leave. -/

namespace Sys2Proof.Machine

/-! ### Canonical memories (log entry 1) -/

theorem Memory.lookup_cons_same (k : Nat) (v : Byte) (rest : Memory) : Memory.lookup ((k, v) :: rest) k = v := by
  simp [Memory.lookup]

theorem Memory.lookup_cons_ne {k a : Nat} (h : k ≠ a) (v : Byte) (rest : Memory) :
    Memory.lookup ((k, v) :: rest) a = rest.lookup a := by
  simp [Memory.lookup, h]

/-- A canonical list has no entry below its head. -/
theorem Memory.head_le_of_lookup_ne {lo k a : Nat} {v : Byte} {rest : Memory}
    (h : Memory.wfFrom lo ((k, v) :: rest) = true) (ha : Memory.lookup ((k, v) :: rest) a ≠ 0#8) : k ≤ a := by
  obtain ⟨-, hk, hv, hrest⟩ := Memory.wfFrom_cons.mp h
  by_contra hlt
  have hfrom : Memory.wfFrom k ((k, v) :: rest) = true := Memory.wfFrom_cons.mpr ⟨le_rfl, hk, hv, hrest⟩
  exact ha (Memory.lookup_below hfrom (Nat.lt_of_not_le hlt))

/-- Two canonical lists with the same entry at every address are the same list: each lists its lowest address first. -/
theorem Memory.eq_of_lookup_eq {lo : Nat} {m m' : Memory} (hm : m.wfFrom lo = true) (hm' : m'.wfFrom lo = true)
    (h : ∀ a, m.lookup a = m'.lookup a) : m = m' := by
  induction m generalizing m' lo with
  | nil =>
    cases m' with
    | nil => rfl
    | cons c' rest' =>
      obtain ⟨-, -, hv', -⟩ := Memory.wfFrom_cons.mp hm'
      have hlisted := h c'.1
      rw [Memory.lookup_cons_same] at hlisted
      exact absurd hlisted.symm hv'
  | cons c rest ih =>
    obtain ⟨k, v⟩ := c
    obtain ⟨-, -, hv, hrest⟩ := Memory.wfFrom_cons.mp hm
    have hk := h k
    rw [Memory.lookup_cons_same] at hk
    cases m' with
    | nil => exact absurd hk hv
    | cons c' rest' =>
      obtain ⟨k', v'⟩ := c'
      obtain ⟨-, -, hv', hrest'⟩ := Memory.wfFrom_cons.mp hm'
      have hk' := h k'
      rw [Memory.lookup_cons_same] at hk'
      have hle : k' ≤ k := Memory.head_le_of_lookup_ne hm' (hk ▸ hv)
      have hge : k ≤ k' := Memory.head_le_of_lookup_ne hm (hk'.symm ▸ hv')
      obtain rfl : k = k' := Nat.le_antisymm hge hle
      obtain rfl : v = v' := hk.trans (Memory.lookup_cons_same _ _ _)
      have htail : ∀ a, Memory.lookup rest a = Memory.lookup rest' a := by
        intro a
        by_cases ha : k = a
        · rw [Memory.lookup_below hrest (by omega), Memory.lookup_below hrest' (by omega)]
        · have hcons := h a
          rwa [Memory.lookup_cons_ne ha, Memory.lookup_cons_ne ha] at hcons
      rw [ih hrest hrest' htail]

/-- Settles O43 (R50; log entry 1): the 16 reads are the whole of a canonical list's entries. -/
theorem equalReadsMeanEqualMemories : Obligations.EqualReadsMeanEqualMemories := by
  intro m m' hm hm' hread
  refine Memory.eq_of_lookup_eq hm hm' fun a => ?_
  by_cases ha : a < 16
  · have hreadA := hread (BitVec.ofNat 4 a)
    rwa [Memory.read, Memory.read, BitVec.toNat_ofNat, Nat.mod_eq_of_lt ha] at hreadA
  · rw [Memory.lookup_above hm (Nat.le_of_not_lt ha), Memory.lookup_above hm' (Nat.le_of_not_lt ha)]

/-! ### The snapshot (R34, R35) -/

theorem Memory.getElem?_entries (m : Memory) (a : Addr) : m.entries[a.toNat]? = some (m.read a) := by
  have ha : a.toNat < 16 := a.isLt
  simp [Memory.entries, Memory.read, ha]

/-- Settles O42 (R35): the snapshot has every element, and its 16 entries are the reads of the memory. -/
theorem snapshotShowsWholeState : Obligations.SnapshotShowsWholeState := by
  intro s t hs ht hsnapshot
  simp only [State.snapshot, Snapshot.mk.injEq] at hsnapshot
  obtain ⟨hA, hB, hpc, hout, hcarry, hentries, hrunning, hhalted⟩ := hsnapshot
  have hmemory : s.memory = t.memory := by
    refine equalReadsMeanEqualMemories _ _ hs ht fun a => ?_
    rw [← Memory.entries_getD _ a 0, hentries, Memory.entries_getD]
  cases s
  cases t
  exact (State.mk.injEq ..).mpr ⟨hA, hB, hpc, hout, hcarry, hmemory, hrunning, hhalted⟩

/-- Settles O41 (R34): `getState` answers the snapshot beside the state itself. -/
theorem getStateObservesAndChangesNothing : Obligations.GetStateObservesAndChangesNothing := fun s =>
  ⟨s.hostOp_getState, rfl, rfl, rfl, rfl, rfl, rfl, rfl, rfl, s.memory.getElem?_entries⟩

/-! ### What `reset` and `load` leave (20_memory.md, 70_reset_and_hazards.md) -/

/-- Settles O37 (R200): neither operation looks at the state, and the copy of an empty program writes nothing. -/
theorem resetAndLoadIgnoreTheState : Obligations.ResetAndLoadIgnoreTheState := fun _ _ _ =>
  ⟨rfl, rfl, rfl, rfl⟩

/-- Settles O39 (R55), by the reads of a loaded memory. -/
theorem loadMasksWideEntries : Obligations.LoadMasksWideEntries := by
  intro s p a
  calc ((s.loadWide p).memory.read a).toNat
      = ((p.map (BitVec.ofNat 8)).getD a.toNat (BitVec.ofNat 8 0)).toNat := congrArg BitVec.toNat (s.read_loadOp _ a)
    _ = p.getD a.toNat 0 % 256 := by rw [List.getD_map, BitVec.toNat_ofNat]

/-- Settles O40 (R201): both operations leave `PC` 0 and the machine not halted, whatever they leave in memory. -/
theorem firstFetchIsAtAddressZero : Obligations.FirstFetchIsAtAddressZero := by
  intro s r p hr
  obtain rfl | rfl := hr
  · exact ⟨rfl, rfl, step_of_not_halted State.reset_halted⟩
  · exact ⟨rfl, rfl, step_of_not_halted (s.halted_loadOp p)⟩

/-- Settles O59 (log entry 1): a write keeps the canonical form, so the copying loop of `load` does. -/
theorem memoryOperationsKeepCanonicalForm : Obligations.MemoryOperationsKeepCanonicalForm :=
  ⟨fun _ a v hm => Memory.wf_write hm a v, fun s p => ⟨s.wf_loadOp p, Memory.wf_nil⟩⟩

/-- Host operations that are neither `reset` nor `load` leave memory as it was, however many they are. -/
theorem State.runHost_memory {ops : List HostOp} (hops : ∀ op ∈ ops, op.keepsProgram = true) (s : State) :
    (State.runHost ops s).memory = s.memory := by
  induction ops generalizing s with
  | nil => rfl
  | cons op rest ih =>
    obtain ⟨hop, hrest⟩ := List.forall_mem_cons.mp hops
    rw [State.runHost_cons, ih hrest, State.hostOp_memory_of_keepsProgram hop]

/-- Settles O44 (R62), from the memory that `load` and `reset` leave. -/
theorem memoryIsTheLastLoads : Obligations.MemoryIsTheLastLoads := fun s p _ hops =>
  ⟨State.runHost_memory hops (s.loadOp p), State.runHost_memory hops s.resetOp⟩

end Sys2Proof.Machine
end

section
/-! PROOFS. The invariant (60_exceptions.md R181; log entry 1): a step that halts leaves the halting word behind `PC`,
and every operation of the host keeps the invariant. -/

namespace Sys2Proof.Machine

section
variable {s t : State}

/-! ### A step that halts (R170 to R173, R181) -/

theorem isHaltingWord_iff (w : Byte) :
    isHaltingWord w = true ↔ (decodeWord w).opcode ∈ [0x8#4, 0xA#4, 0xC#4, 0xD#4] := by
  simp [isHaltingWord, opcode_decodeWord, or_assoc]

/-- A step that halts has fetched a halting word and leaves `PC` one past it (R181, D6). -/
theorem haltingWord_and_haltAddress_of_step (hs : s.halted = false) (hstep : step s = .next t) (ht : t.halted = true) :
    isHaltingWord s.fetchWord = true ∧ t.haltAddress = s.programCounter := by
  have hcommand := State.stepCommand_of_step hstep
  have hword : (decodeWord s.fetchWord).opcode ∈ [0x8#4, 0xA#4, 0xC#4, 0xD#4] :=
    (State.stepCommand_halts_iff hs).mp (by rw [hcommand, ht])
  rw [State.stepCommand_of_halting hs hword] at hcommand
  obtain rfl := congrArg Prod.fst hcommand
  exact ⟨(isHaltingWord_iff _).mpr hword, by simp⟩

/-! ### What keeps the invariant -/

theorem State.inv_of_not_halted (hwf : s.memory.wf = true) (hs : s.halted = false) : s.Inv :=
  ⟨hwf, fun h => absurd h (by simp [hs])⟩

/-- A halted machine keeps its state; one that halts now leaves behind `PC` the word it fetched. -/
theorem State.Inv.step (hinv : s.Inv) (hstep : step s = .next t) : t.Inv := by
  cases hs : s.halted with
  | true =>
    obtain rfl := Host.Outcome.next.inj ((step_of_halted hs).symm.trans hstep)
    exact hinv
  | false =>
    obtain ⟨hwf, -⟩ := hinv
    have hmemory := step_memory hstep
    refine ⟨hmemory ▸ hwf, fun ht => ?_⟩
    obtain ⟨hword, haddress⟩ := haltingWord_and_haltAddress_of_step hs hstep ht
    rwa [haddress, hmemory]

theorem State.Inv.stepCommand (hinv : s.Inv) : s.stepCommand.1.Inv := hinv.step (step_eq_next_stepCommand s)

theorem State.Inv.hostOp (hinv : s.Inv) (op : HostOp) : (s.hostOp op).1.Inv := by
  cases op with
  | step => exact hinv.stepCommand
  | reset => exact State.inv_of_not_halted Memory.wf_nil rfl
  | load p => exact State.inv_of_not_halted (s.wf_loadOp p) (s.halted_loadOp p)
  | getState | setRunning => exact hinv

theorem State.Inv.stepN (hinv : s.Inv) (n : Nat) : (State.stepN n s).Inv := by
  induction n generalizing s with
  | zero => exact hinv
  | succ n ih => exact ih hinv.stepCommand

theorem State.reset_inv : State.reset.Inv := State.inv_of_not_halted Memory.wf_nil rfl

theorem State.Reachable.inv (hs : s.Reachable) : s.Inv := by
  obtain ⟨ops, rfl⟩ := hs
  exact State.Reachable_induction State.reset_inv (fun _ op hinv => hinv.hostOp op) ops

end

/-! ### The statements about the invariant -/

/-- Settles O47 (R53, R181), by the value of `HALTED` before the step. -/
theorem stepKeepsInvariant : Obligations.StepKeepsInvariant := fun _ _ hinv hstep => hinv.step hstep

/-- Settles O48 (R181, R194), by each host operation: `reset` and `load` leave the machine not halted. -/
theorem hostOperationsKeepInvariant : Obligations.HostOperationsKeepInvariant := fun _ op hinv => hinv.hostOp op

/-- Settles O46 (R33): the memory is the empty list and the machine is not halted. -/
theorem resetMeetsInvariant : Obligations.ResetMeetsInvariant := State.reset_inv

/-- Settles O50 (R113, R181): every step has a next state, and each keeps the invariant. -/
theorem everyRunIsSafe : Obligations.EveryRunIsSafe := fun _ _ hinv k _ => ⟨hinv.stepN k, exists_step_eq_next _⟩

/-- Settles O49 (R181), by the step that halts and by the invariant of the reachable states. -/
theorem haltingWordIsRecoverable : Obligations.HaltingWordIsRecoverable := by
  refine ⟨fun s t hs hstep ht => ?_, fun s hreach hs => ?_⟩
  · obtain ⟨-, haddress⟩ := haltingWord_and_haltAddress_of_step hs hstep ht
    exact haddress
  · obtain ⟨-, hword⟩ := hreach.inv
    rw [← opcode_decodeWord_toNat]
    exact List.mem_map_of_mem (f := BitVec.toNat) ((isHaltingWord_iff _).mp (hword hs))

end Sys2Proof.Machine
end

section
/-! PROOFS. Runs of many steps (45_halt.md, 44_control.md, 70_reset_and_hazards.md): halted is terminal, a JMP to
itself, all-zero memory, the sticky carry, and where a driven run ends. -/

namespace Sys2Proof.Machine

section
variable {s t : State}

/-! ### Halted is terminal (R174) -/

/-- A state that a step leaves as it was is left so by any number of steps. -/
theorem State.stepN_of_fixed {b : Bool} (h : s.stepCommand = (s, b)) (n : Nat) : State.stepN n s = s := by
  induction n with
  | zero => rfl
  | succ n ih => rw [State.stepN_succ, h, ih]

/-- In a halted state an operation that is neither `reset` nor `load` can write `RUNNING` only. -/
theorem State.hostOp_of_halted (hs : s.halted = true) {op : HostOp} (hop : op.keepsProgram = true) :
    ∃ b, (s.hostOp op).1 = s.setRunning b := by
  cases op with
  | reset | load => cases hop
  | step => exact ⟨s.running, by rw [State.hostOp_step, State.stepCommand_of_halted hs]; rfl⟩
  | getState => exact ⟨s.running, rfl⟩
  | setRunning b => exact ⟨b, rfl⟩

theorem State.runHost_of_halted (hs : s.halted = true) {ops : List HostOp}
    (hops : ∀ op ∈ ops, op.keepsProgram = true) : ∃ b, State.runHost ops s = s.setRunning b := by
  induction ops generalizing s with
  | nil => exact ⟨s.running, rfl⟩
  | cons op rest ih =>
    obtain ⟨hop, hrest⟩ := List.forall_mem_cons.mp hops
    obtain ⟨b, hb⟩ := State.hostOp_of_halted hs hop
    obtain ⟨b', hb'⟩ := ih (s := s.setRunning b) hs hrest
    exact ⟨b', by rw [State.runHost_cons, hb, hb']; rfl⟩

/-- The instructions with a halting opcode are the four halting ones. -/
theorem mem_halting_of_opcode {i : Instr} (h : i.opcode ∈ [0x8#4, 0xA#4, 0xC#4, 0xD#4]) :
    i ∈ [Instr.und8 i.lowNibble, .undA i.lowNibble, .undC i.lowNibble, .undD i.lowNibble] := by
  cases i with
  | und8 | undA | undC | undD => simp [Instr.lowNibble]
  | _ => simp [Instr.opcode] at h

/-! ### All-zero memory (R205) -/

theorem aluResult_zero (x : Nibble) : aluResult x 0 = x := by
  refine BitVec.eq_of_toNat_eq ?_
  rw [aluResult_toNat]
  exact Nat.mod_eq_of_lt x.isLt

theorem aluCarry_zero (x : Nibble) : aluCarry x 0 = 0 := by
  have hsum : ¬ x.toNat + (0 : Nibble).toNat > 15 := Nat.not_lt_of_le (Nat.le_of_lt_succ x.isLt)
  rw [aluCarry_eq, if_neg hsum]

/-- ADD A, 0, the instruction of the word 0, clears the carry and changes nothing else but `PC`. -/
theorem State.stepCommand_of_zero_word (hs : s.halted = false) (hword : s.memory.read s.programCounter = 0#8) :
    s.stepCommand = ((s.setPc (s.programCounter + 1)).setCarry 0, true) := by
  have hexec : exec (.addA 0) s.advancePc = .next (s.advancePc.setCarry 0) := by
    rw [exec_addA, aluResult_zero, aluCarry_zero]
    rfl
  exact State.stepCommand_of_encodeWord (.addA 0) hs hword hexec hs

/-- Over all-zero memory each step adds 1 to `PC`, and the first clears the carry. -/
theorem State.stepN_of_zero_memory (hs : s.halted = false) (hzero : ∀ a : Addr, s.memory.read a = 0) (n : Nat) :
    State.stepN n s =
      (s.setPc (BitVec.ofNat 4 (s.programCounter.toNat + n))).setCarry (if n = 0 then s.carryFlag else 0) := by
  induction n generalizing s with
  | zero => simp [State.setPc, State.setCarry]
  | succ n ih =>
    have hpc : BitVec.ofNat 4 ((s.programCounter + 1).toNat + n) =
        BitVec.ofNat 4 (s.programCounter.toNat + (n + 1)) := by
      have hadvance : (s.programCounter + 1).toNat = (s.programCounter.toNat + 1) % 16 := BitVec.toNat_add _ _
      refine BitVec.eq_of_toNat_eq ?_
      rw [hadvance, BitVec.toNat_ofNat, BitVec.toNat_ofNat]
      omega
    have hrest := ih (s := (s.setPc (s.programCounter + 1)).setCarry 0) hs hzero
    rw [State.stepN_succ, State.stepCommand_of_zero_word hs (hzero _), hrest]
    simp only [State.setCarry_programCounter, State.setPc_programCounter, hpc, State.setCarry_carryFlag, ite_self,
      Nat.succ_ne_zero, if_false]
    rfl

/-! ### The sticky carry (R209) -/

theorem State.stepCommand_carryFlag
    (h : s.halted = false → (decodeWord s.fetchWord).opcode ∉ [0x0#4, 0x5#4]) :
    s.stepCommand.1.carryFlag = s.carryFlag := by
  cases hs : s.halted with
  | true => rw [State.stepCommand_of_halted hs]
  | false =>
    obtain ⟨t, hexec, ht⟩ := State.stepCommand_of_not_halted hs
    rw [ht]
    exact (exec_frame hexec).carryFlag (h hs)

theorem State.stepN_carryFlag {n : Nat} (h : ∀ k < n, (State.stepN k s).halted = false →
      (decodeWord (State.stepN k s).fetchWord).opcode ∉ [0x0#4, 0x5#4]) :
    (State.stepN n s).carryFlag = s.carryFlag := by
  induction n with
  | zero => rfl
  | succ n ih =>
    rw [State.stepN_succ_last, State.stepCommand_carryFlag (h n n.lt_succ_self), ih fun k hk => h k (by omega)]

/-! ### Driven runs (R211) -/

/-- A driven run that ends has made its last step right after the steps that returned true. -/
theorem State.drive_ended {fuel : Nat} (h : State.drive fuel s = .ended t) :
    ∃ k < fuel, t = State.stepN (k + 1) s ∧ (State.stepN k s).stepCommand.2 = false ∧
      ∀ j < k, (State.stepN j s).stepCommand.2 = true := by
  induction fuel generalizing s with
  | zero => cases h
  | succ fuel ih =>
    cases hs : s.stepCommand.2 with
    | false =>
      rw [State.drive_of_stop hs] at h
      exact ⟨0, by omega, (RunEnd.ended.inj h).symm, hs, fun j hj => absurd hj (by omega)⟩
    | true =>
      rw [State.drive_of_continue hs] at h
      obtain ⟨k, hk, ht, hstop, hgo⟩ := ih h
      refine ⟨k + 1, by omega, ht, hstop, fun j hj => ?_⟩
      cases j with
      | zero => exact hs
      | succ j => exact hgo j (by omega)

/-- More fuel does not change a driven run that ended. -/
theorem State.drive_add_fuel {fuel : Nat} (h : State.drive fuel s = .ended t) (more : Nat) :
    State.drive (fuel + more) s = .ended t := by
  induction fuel generalizing s with
  | zero => cases h
  | succ fuel ih =>
    rw [Nat.succ_add]
    cases hs : s.stepCommand.2 with
    | false => rwa [State.drive_of_stop hs] at h ⊢
    | true =>
      rw [State.drive_of_continue hs] at h ⊢
      exact ih h

/-- A driven run out of fuel has made all its steps, and each returned true. -/
theorem State.drive_outOfFuel {fuel : Nat} (h : State.drive fuel s = .outOfFuel t) :
    t = State.stepN fuel s ∧ ∀ k < fuel, (State.stepN k s).stepCommand.2 = true := by
  induction fuel generalizing s with
  | zero => exact ⟨(RunEnd.outOfFuel.inj h).symm, fun k hk => absurd hk (by omega)⟩
  | succ fuel ih =>
    cases hs : s.stepCommand.2 with
    | false => rw [State.drive_of_stop hs] at h; cases h
    | true =>
      rw [State.drive_of_continue hs] at h
      obtain ⟨ht, hgo⟩ := ih h
      refine ⟨ht, fun k hk => ?_⟩
      cases k with
      | zero => exact hs
      | succ k => exact hgo k (by omega)

end

/-! ### The statements about halts and runs -/

/-- Settles O45 (R174): a halted machine's step is no change, its host can write `RUNNING` only, and of a machine that
is not halted only a step of a halting opcode makes a halted one. -/
theorem haltedIsTerminal : Obligations.HaltedIsTerminal := by
  refine ⟨fun s n hs => ?_, fun s ops hs hops => ?_, fun s op hs hhalts => ?_⟩
  · have hfixed := State.stepCommand_of_halted hs
    exact ⟨State.stepN_of_fixed hfixed n, by rw [State.stepN_of_fixed hfixed, hfixed]⟩
  · obtain ⟨b, hb⟩ := State.runHost_of_halted hs hops
    rw [hb]
    rfl
  · obtain ⟨hop, hword⟩ := (State.hostOp_halts_iff hs op).mp hhalts
    exact ⟨hop, _, mem_halting_of_opcode hword⟩

/-- Settles O51 (R163): the jump writes back the `PC` that the step advanced. -/
theorem jumpToItselfLoopsForever : Obligations.JumpToItselfLoopsForever := by
  intro s n hs hword
  have hloop : s.stepCommand = (s, true) :=
    State.stepCommand_of_encodeWord (.jmpImm s.programCounter) hs hword (exec_jmpImm _ _) hs
  exact ⟨State.stepN_of_fixed hloop n, by rw [State.stepN_of_fixed hloop, hloop]⟩

/-- Settles O52 (R205), by induction on the number of steps. -/
theorem zeroMemoryRunsForever : Obligations.ZeroMemoryRunsForever := fun _ n hs hzero =>
  State.stepN_of_zero_memory hs hzero n

/-- Settles O53 (R209): the carry is in the frame of every step that fetches no ADD, and ADD A, 0 clears it. -/
theorem carrySticksBetweenAdditions : Obligations.CarrySticksBetweenAdditions := by
  refine ⟨fun s n h => State.stepN_carryFlag h, fun s imm hs hadd hjnc => ?_⟩
  have hstep := State.stepCommand_of_zero_word hs hadd
  obtain ⟨-, -, hjump⟩ := jncImmJumpsIffNoCarry imm ((s.setPc (s.programCounter + 1)).setCarry 0)
  rw [State.stepN_succ, hstep, State.stepN_succ, hjump hs hjnc]
  rfl

/-- Settles O54 (R211, D11): the last step returned false, so it left a halted state. -/
theorem drivenRunEndsAtFirstHalt : Obligations.DrivenRunEndsAtFirstHalt := by
  refine fun fuel s t => ⟨fun h => ?_, State.drive_outOfFuel⟩
  obtain ⟨k, hk, ht, hstop, hgo⟩ := State.drive_ended h
  have hhalted : t.halted = true := by
    rw [ht, State.stepN_succ_last]
    exact (State.stepCommand_snd_eq_false_iff _).mp hstop
  exact ⟨⟨k, hk, ht, hstop, hgo⟩, hhalted, State.stepCommand_of_halted hhalted, State.drive_add_fuel h⟩

end Sys2Proof.Machine
end

section
/-! PROOFS. The first bad line of a text (30_encoding.md R85, R88): the lines that parse before it do not hide it. -/

namespace Sys2Proof.Machine

section
variable {ws : Char → Bool}

/-- Lines that parse are each skipped or a binary word, and the lines after such a line parse too. -/
theorem parseLines_cons_eq_words {line : List Char} {rest : List (List Char)} {p : List Byte}
    (h : parseLines ws (line :: rest) = .words p) :
    (isSkipped ws line = true ∨ (isSkipped ws line = false ∧ isBinaryWord (instructionText ws line) = true)) ∧
      ∃ q, parseLines ws rest = .words q := by
  cases hskip : isSkipped ws line with
  | true => exact ⟨.inl rfl, p, by rwa [parseLines_skipped hskip] at h⟩
  | false =>
    cases hword : isBinaryWord (instructionText ws line) with
    | false => rw [parseLines_refused hskip hword] at h; cases h
    | true =>
      cases hrest : parseLines ws rest with
      | words q => exact ⟨.inr ⟨rfl, rfl⟩, q, rfl⟩
      | parseError l => simp [parseLines, hskip, hword, hrest] at h

theorem parseLines_word_of_error {line l : List Char} {rest : List (List Char)} (hskip : isSkipped ws line = false)
    (hword : isBinaryWord (instructionText ws line) = true) (hrest : parseLines ws rest = .parseError l) :
    parseLines ws (line :: rest) = .parseError l := by
  simp [parseLines, hskip, hword, hrest]

/-- An error behind lines that parse is the error of the whole. -/
theorem parseLines_append_of_error {before rest : List (List Char)} {p : List Byte} {l : List Char}
    (hbefore : parseLines ws before = .words p) (hrest : parseLines ws rest = .parseError l) :
    parseLines ws (before ++ rest) = .parseError l := by
  induction before generalizing p with
  | nil => exact hrest
  | cons line lines ih =>
    obtain ⟨hline, q, hlines⟩ := parseLines_cons_eq_words hbefore
    rw [List.cons_append]
    obtain hskip | ⟨hskip, hword⟩ := hline
    · rw [parseLines_skipped hskip, ih hlines]
    · exact parseLines_word_of_error hskip hword (ih hlines)

end

/-- Settles O57 (R85, R88; D13, D25): the bad line is refused whatever follows it, and what parses before it passes the
error on. -/
theorem firstBadLineIsReported : Obligations.FirstBadLineIsReported := fun _ _ after _ _ hbefore hskip hword =>
  parseLines_append_of_error hbefore (parseLines_refused hskip hword after)

end Sys2Proof.Machine
end
